-- ==== Sys2Proof/Word.lean ====
section
/-! DEFINITION. Word.lean: the buses of the command port (spec/30_encoding.md rules R53, R54; bit i of every bus
has weight 2^i, spec/20_memory.md rule R43). -/

namespace Sys2Proof

/-- The 132-bit command word CW (R54). -/
abbrev CmdWord := BitVec 132

/-- cmd_op, CW[3:0] (R54). -/
abbrev Opcode := BitVec 4

/-- A 128-bit bus: cmd_arg, CW[131:4] (R54), and rsp_data (R53). -/
abbrev Bus := BitVec 128

/-- rsp_err (R53, R61). -/
abbrev ErrBits := BitVec 2

end Sys2Proof
end

