-- ==== Sys2Proof/Syntax.lean ====
section
/-! DEFINITION. Syntax.lean: the commands of the block, one constructor per row of spec/opcode_table.json
(spec/30_encoding.md rule R55). Every constructor keeps the whole 128-bit argument of its word, also where the
command ignores it (R59), so that a command is exactly a command word (notes/assumptions/18.md). -/

namespace Sys2Proof

/-- A command. The comments give the opcode and the use of cmd_arg (R55). -/
inductive Instr where
  /-- 0x0 LOAD, the argument is the seed (R57, R84). -/
  | load (seed : Bus)
  /-- 0x1 STEP, the argument is ignored (R121, R155). -/
  | step (ignored : Bus)
  /-- 0x2 STEPN, the argument is the count (R58, R128). -/
  | stepn (count : Bus)
  /-- 0x3 NEXT16, the argument is ignored (R134). -/
  | next16 (ignored : Bus)
  /-- 0x4 NEXT32, the argument is ignored (R135). -/
  | next32 (ignored : Bus)
  /-- 0x5 NEXT64, the argument is ignored (R136). -/
  | next64 (ignored : Bus)
  /-- 0x6 VALUE, the argument is ignored (R88). -/
  | value (ignored : Bus)
  /-- 0x7 STATE, the argument is ignored (R92). -/
  | state (ignored : Bus)
  /-- 0x8 to 0xF, the reserved opcodes; the argument is ignored (R62, R166). -/
  | reserved (op : Opcode) (ignored : Bus)
  deriving DecidableEq, Repr

end Sys2Proof
end

