-- ==== Sys2Proof/WellFormed.lean ====
section
/-! DEFINITION. WellFormed.lean: which terms of Instr stand for a command word (spec/30_encoding.md rules R55,
R62). The one check is that a reserved command has a reserved opcode; every argument is legal syntax. -/

namespace Sys2Proof

/-- A reserved command has an opcode in 0x8 to 0xF (R62); nothing else is constrained: a STEPN count above 128 is
a word like any other, answered with COUNT_RANGE (R58, R167). -/
def WellFormed : Instr → Bool
  | .load _ => true
  | .step _ => true
  | .stepn _ => true
  | .next16 _ => true
  | .next32 _ => true
  | .next64 _ => true
  | .value _ => true
  | .state _ => true
  | .reserved op _ => decide (8 ≤ op.toNat)

end Sys2Proof
end

