-- ==== Sys2Proof/Decode.lean ====
section
/-! DEFINITION. Decode.lean: the decoder and the encoder of the command word (spec/30_encoding.md rules R54 to R56).
Decoding is total over every 132-bit word and refuses none of them (R56, R62). -/

namespace Sys2Proof

/-- cmd_op = CW[3:0] (R54). -/
def opField (w : CmdWord) : Opcode := w.extractLsb' 0 4

/-- cmd_arg = CW[131:4] (R54). -/
def argField (w : CmdWord) : Bus := w.extractLsb' 4 128

/-- The command word with these fields, {arg, op} (R54). -/
def cmdWord (op : Opcode) (arg : Bus) : CmdWord := arg ++ op

/-- The row of the opcode map that op selects (R55, R56). -/
def decodeFields (op : Opcode) (arg : Bus) : Instr :=
  match op.toNat with
  | 0x0 => .load arg
  | 0x1 => .step arg
  | 0x2 => .stepn arg
  | 0x3 => .next16 arg
  | 0x4 => .next32 arg
  | 0x5 => .next64 arg
  | 0x6 => .value arg
  | 0x7 => .state arg
  | _ => .reserved op arg

/-- The command a word spells (R56). -/
def decode (w : CmdWord) : Instr := decodeFields (opField w) (argField w)

/-- The opcode of a command (R55). -/
def Instr.opcode : Instr → Opcode
  | .load _ => 0x0#4
  | .step _ => 0x1#4
  | .stepn _ => 0x2#4
  | .next16 _ => 0x3#4
  | .next32 _ => 0x4#4
  | .next64 _ => 0x5#4
  | .value _ => 0x6#4
  | .state _ => 0x7#4
  | .reserved op _ => op

/-- The 128-bit argument of a command (R54). -/
def Instr.arg : Instr → Bus
  | .load a => a
  | .step a => a
  | .stepn a => a
  | .next16 a => a
  | .next32 a => a
  | .next64 a => a
  | .value a => a
  | .state a => a
  | .reserved _ a => a

/-- The command word of a command (R54, R55). -/
def encode (i : Instr) : CmdWord := cmdWord i.opcode i.arg

/-- The command whose word has the bits of w, of which nbits are given and the rest are 0. A number with a bit at
or above 132 is no command word: the bus has no such wire (R54, notes/assumptions/15.md). -/
def decodeTableWord (nbits w : Nat) : Option Instr :=
  let v := w % 2 ^ nbits
  if v < 2 ^ 132 then some (decode (BitVec.ofNat 132 v)) else none

end Sys2Proof
end

