-- ==== Sys2Proof/Config.lean ====
section
/-! DEFINITION. Config.lean: the elaboration-time parameters of an instance (spec/00_scope.md rules R8 to R13), which
configurations are legal (R16), and the free values. What is computed from the parameters stands in
Machine/Params.lean. -/

namespace Sys2Proof

/-- DIR (R10). -/
inductive Config.Dir where
  | right
  | left
  deriving DecidableEq, Repr

/-- One exception to the default latency: the word with this opcode and argument takes `extra` edges beyond 1. -/
structure Config.LatEntry where
  op : Opcode
  arg : Bus
  extra : Nat
  deriving DecidableEq, Repr

/-- The parameters as they are written down, legal or not (R8 to R13). LAT is a function of opcode and argument with
values of at least 1 (R12); its domain is finite, so a default and a list of exceptions give every such function
(notes/assumptions/2.md). -/
structure Config.Params where
  /-- N (R8). -/
  n : Nat
  /-- TAPS, in the order they are listed; the order has no effect (R9, R104). -/
  taps : List Nat
  /-- DIR (R10). -/
  dir : Config.Dir
  /-- INVERT (R11). -/
  invert : Bool
  /-- RESET_SEED, an unsigned integer (R13). -/
  resetSeed : Nat
  /-- LAT - 1 of the words that latTable does not list (R12). -/
  latDefault : Nat
  /-- LAT - 1 of the listed words (R12). -/
  latTable : List Config.LatEntry
  deriving DecidableEq, Repr

/-- A legal configuration, exactly as rule R16 lists it. -/
abbrev Config.Legal (p : Config.Params) : Prop :=
  1 ≤ p.n ∧ p.n ≤ 128 ∧ p.taps ≠ [] ∧ (∀ t ∈ p.taps, 1 ≤ t ∧ t ≤ p.n) ∧ p.taps.Nodup ∧
    (p.invert = false ∨ p.dir = Config.Dir.left)

/-- The configuration of an instance: a subtype with a proof of legality (R16). -/
abbrev Configuration := { p : Config.Params // Config.Legal p }

/-- N (R8). -/
abbrev Configuration.n (c : Configuration) : Nat := c.val.n

/-- TAPS (R9). -/
abbrev Configuration.taps (c : Configuration) : List Nat := c.val.taps

/-- DIR (R10). -/
abbrev Configuration.dir (c : Configuration) : Config.Dir := c.val.dir

/-- INVERT (R11). -/
abbrev Configuration.invert (c : Configuration) : Bool := c.val.invert

/-- RESET_SEED (R13). -/
abbrev Configuration.resetSeed (c : Configuration) : Nat := c.val.resetSeed

/-- A legal configuration: N = 1, TAPS = [1], RIGHT. It only shows that the type is inhabited; no value of the model
is taken from it. -/
def Config.smallest : Configuration := ⟨⟨1, [1], .right, false, 0, 0, []⟩, by decide⟩

/-- FREE VALUE: some legal configuration, which nothing in Lean can evaluate (R24, R191, notes/assumptions/1.md). -/
opaque Config.pick [Inhabited Configuration] : Configuration

/-- The configuration of the instance that State.reset is: a free value, so a statement about it holds for every
legal configuration. -/
def Config.cfg : Configuration := @Config.pick ⟨Config.smallest⟩

/-- FREE VALUE: rsp_data in a cycle with rsp_valid = 0, one for each draw (R27, U4; notes/assumptions/5.md). -/
opaque Config.freeRspData : Nat → Bus

/-- FREE VALUE: rsp_err in a cycle with rsp_valid = 0, one for each draw (R27, U4; notes/assumptions/5.md). -/
opaque Config.freeRspErr : Nat → ErrBits

/-- FREE VALUE: state_q in a busy cycle, one for each draw (R207, U5; notes/assumptions/6.md). -/
opaque Config.freeStateQ : (width : Nat) → Nat → BitVec width

/-- FREE VALUE: value_q in a busy cycle, one for each draw (R207, U5; notes/assumptions/6.md). -/
opaque Config.freeValueQ : (width : Nat) → Nat → BitVec width

end Sys2Proof
end

