-- ==== Sys2Proof/Machine/Params.lean ====
section
/-! DEFINITION. Machine/Params.lean: what the parameters of an instance determine (spec/00_scope.md rules R12 to R16,
spec/60_exceptions.md rule R165): the tap positions and TAPMASK, VW, LAT and its bound, the reset value of STATE, and
the refusal of illegal configurations by name. -/

namespace Sys2Proof.Machine

/-- idx(t), the bit position that tap t selects (R15, R101). -/
def idx (c : Configuration) (t : Nat) : Nat :=
  match c.dir with
  | .right => c.n - t
  | .left => t - 1

/-- TAPMASK: bit i is set exactly when i = idx(t) for some tap t (R15). -/
def tapMask (c : Configuration) : BitVec c.n :=
  c.taps.foldl (fun m t => m ||| BitVec.twoPow c.n (idx c t)) 0

/-- VW, the width of the narrowest unsigned type covering N bits (R14). -/
def valueWidth (n : Nat) : Nat :=
  if n ≤ 8 then 8 else if n ≤ 16 then 16 else if n ≤ 32 then 32 else if n ≤ 64 then 64 else 128

/-- LAT(op, arg) - 1, from the table (R12). -/
def extraLatency (c : Configuration) (op : Opcode) (arg : Bus) : Nat :=
  match c.val.latTable.find? (fun e => decide (e.op = op ∧ e.arg = arg)) with
  | some e => e.extra
  | none => c.val.latDefault

/-- LAT(op, arg), at least 1 (R12, R198). -/
def latency (c : Configuration) (op : Opcode) (arg : Bus) : Nat := 1 + extraLatency c op arg

/-- LAT_MAX, a finite bound that depends only on the configuration (R205). -/
def latencyMax (c : Configuration) : Nat :=
  1 + c.val.latTable.foldr (fun e m => max e.extra m) c.val.latDefault

/-- RESET_SEED mod 2^N (R34, R190). -/
def resetValue (c : Configuration) : BitVec c.n := BitVec.ofNat c.n c.resetSeed

/-- The configuration errors (R165). -/
inductive ConfigError where
  /-- N is not in 1 to 128 (R8). -/
  | widthOutOfRange
  /-- TAPS is empty (R9). -/
  | emptyTapSet
  /-- a tap is not in 1 to N (R9). -/
  | tapOutOfRange
  /-- a tap is listed twice (R9). -/
  | repeatedTap
  /-- INVERT = 1 with DIR = RIGHT (R11). -/
  | invertedRight
  deriving DecidableEq, Repr

/-- Elaboration: the instance's configuration, or the error that refuses it (R16, R165). Which of several errors is
named first is no matter of the spec's. -/
def elaborate (p : Config.Params) : Except ConfigError Configuration :=
  if hn : 1 ≤ p.n ∧ p.n ≤ 128 then
    if he : p.taps ≠ [] then
      if ht : ∀ t ∈ p.taps, 1 ≤ t ∧ t ≤ p.n then
        if hd : p.taps.Nodup then
          if hi : p.invert = false ∨ p.dir = Config.Dir.left then
            .ok ⟨p, hn.1, hn.2, he, ht, hd, hi⟩
          else .error .invertedRight
        else .error .repeatedTap
      else .error .tapOutOfRange
    else .error .emptyTapSet
  else .error .widthOutOfRange

end Sys2Proof.Machine
end

