-- ==== Sys2Proof/Machine/State.lean ====
section
/-! DEFINITION. Machine/State.lean: the state of the block after a clock edge (spec/10_state.md), the pins the host
drives (spec/30_encoding.md rule R53), and the reasons a model of it can stop. -/

namespace Sys2Proof.Machine

/-- What a response carries: rsp_data and rsp_err (R27, R60). -/
structure Response where
  data : Bus
  err : ErrBits
  deriving DecidableEq, Repr

/-- The input pins as the block samples them at one edge (R53, R197). -/
structure Pins where
  rst : Bool
  cmdValid : Bool
  cmdOp : Opcode
  cmdArg : Bus
  deriving DecidableEq, Repr

/-- What the host does next (R208). -/
inductive HostAction where
  /-- these pin values at exactly one edge; a command not accepted there is withdrawn (R197) -/
  | drive (pins : Pins)
  /-- rst = 0, cmd_valid = 1 and this word, held until an edge accepts it (R208) -/
  | issue (op : Opcode) (arg : Bus)
  deriving DecidableEq, Repr

/-- The hidden sequencing state of a command in flight (R30): the pending command, the number of edges until the one
that begins its response cycle, and the response it will give (notes/assumptions/14.md). -/
structure InFlight where
  instr : Instr
  left : Nat
  rsp : Response
  deriving DecidableEq, Repr

/-- The state after an edge. `cfg`, `host` and `draws` are the model's own fields (notes/assumptions/1.md, 9.md,
7.md); the others are state elements of the block (R20, R26, R27, R30). -/
structure State where
  /-- N, TAPS, DIR, INVERT, RESET_SEED and LAT of this instance; no step writes it (R24) -/
  cfg : Configuration
  /-- STATE, the N-bit register (R20) -/
  q : BitVec cfg.n
  /-- rsp_valid (R27) -/
  rspValid : Bool
  /-- rsp_data (R27); a free value where rsp_valid = 0 after an edge of a run (U4) -/
  rspData : Bus
  /-- rsp_err (R27); a free value where rsp_valid = 0 after an edge of a run (U4) -/
  rspErr : ErrBits
  /-- rst at the most recent edge (R26, R196) -/
  rstSeen : Bool
  /-- the command in flight, if any (R30) -/
  seq : Option InFlight
  /-- what the host does at the coming edges, next first; with none left it is idle with rst = 0 (R53) -/
  host : List HostAction
  /-- how many free values have been drawn -/
  draws : Nat
  deriving DecidableEq, Repr

/-- Why a model can stop, or what it records. No step of the engine answers a fault or a refusal (R56, R116, R205). -/
inductive Fault where
  /-- RECORDED by Safety.recordedFault for a response with rsp_err = ILLEGAL_OP (R166, decision D31); it stops
  nothing. Unsafe where a claim goes on after it: see notes/assumptions/4.md. -/
  | illegalOp
  /-- RECORDED by Safety.recordedFault for a response with rsp_err = COUNT_RANGE (R167, decision D31); it stops
  nothing. Unsafe where a claim goes on after it: see notes/assumptions/4.md. -/
  | countRange
  /-- RECORDED by Safety.recordedFault for a response with rsp_err = 0b11, which no command produces (R61, X3).
  Safe. -/
  | errCodeNeverProduced
  /-- RAISED by stateRegisterEdge, the model of state_register alone, for ctrl = 0b11 (R82, X4); the engine never
  drives it. Safe. -/
  | reservedCtrl
  deriving DecidableEq, Repr

/-- Why an instruction has no meaning. -/
inductive Refusal where
  /-- an arm of exec without a meaning; no arm answers it. Safe. -/
  | notModelled (mnemonic : String)
  deriving DecidableEq, Repr

/-- An instance right after its last edge with rst = 1 (R34, R190): STATE is RESET_SEED mod 2^N, nothing is in flight,
rsp_valid is 0. rsp_data and rsp_err, which the spec leaves unspecified, and the model's own fields take the values
of notes/assumptions/7.md and 9.md. -/
def State.resetOf (c : Configuration) : State where
  cfg := c
  q := resetValue c
  rspValid := false
  rspData := 0
  rspErr := 0
  rstSeen := true
  seq := none
  host := []
  draws := 0

/-- The machine right after reset, for the configuration that nothing constrains. -/
def State.reset : State := State.resetOf Config.cfg

end Sys2Proof.Machine
end

