-- ==== Sys2Proof/Machine/Flags.lean ====
section
/-! DEFINITION. Machine/Flags.lean: the block has no flags (spec/10_state.md rule R31); the one status of a command is
the error code of its response (spec/30_encoding.md rule R61, spec/60_exceptions.md rules R166 to R169). -/

namespace Sys2Proof.Machine

/-- OK (R61). -/
def errOk : ErrBits := 0b00#2

/-- ILLEGAL_OP (R61, R166). -/
def errIllegalOp : ErrBits := 0b01#2

/-- COUNT_RANGE (R61, R167). -/
def errCountRange : ErrBits := 0b10#2

/-- The error that applies to a command: at most one does (R169). -/
def errOf : Instr → ErrBits
  | .load _ => errOk
  | .step _ => errOk
  | .stepn count => if 128 < count.toNat then errCountRange else errOk
  | .next16 _ => errOk
  | .next32 _ => errOk
  | .next64 _ => errOk
  | .value _ => errOk
  | .state _ => errOk
  | .reserved _ _ => errIllegalOp

/-- The fault a model records for a response with this code (decision D31, X1 to X3). -/
def faultOf (err : ErrBits) : Option Fault :=
  match err.toNat with
  | 0 => none
  | 1 => some .illegalOp
  | 2 => some .countRange
  | _ => some .errCodeNeverProduced

end Sys2Proof.Machine
end

