-- ==== Sys2Proof/Machine/Operands.lean ====
section
/-! DEFINITION. Machine/Operands.lean: how a command reads its argument (spec/30_encoding.md rules R57, R58) and how
values are laid on the 128-bit response bus (spec/00_scope.md rule R17, spec/30_encoding.md rule R60). -/

namespace Sys2Proof.Machine

/-- The seed of LOAD: the low N bits of cmd_arg, the others discarded (R57). -/
def seedOperand (c : Configuration) (arg : Bus) : BitVec c.n := arg.setWidth c.n

/-- The count of STEPN: cmd_arg as an unsigned 128-bit integer (R58). -/
def countOperand (arg : Bus) : Nat := arg.toNat

/-- zext_w of one bit (R17). -/
def zextBit (w : Nat) (b : Bool) : BitVec w := (BitVec.ofBool b).setWidth w

/-- zext_128 of an N-bit value, N at most 128 (R17). -/
def zextBus {n : Nat} (v : BitVec n) : Bus := v.setWidth 128

/-- zext_128(r[w-1:0]), the narrowing of NEXT16, NEXT32 and NEXT64 (R134 to R136). -/
def narrow (w : Nat) (r : Bus) : Bus := zextBus (r.setWidth w)

/-- r with bit i, so far 0, set to o: the packing of R125 and R128. -/
def packBit (r : Bus) (i : Nat) (o : Bool) : Bus := r ||| (zextBit 128 o <<< i)

end Sys2Proof.Machine
end

