-- ==== Sys2Proof/Machine/Ops.lean ====
section
/-! DEFINITION. Machine/Ops.lean: the sub-block state_register (spec/40_state_ops.md rules R81 to R83, R86), the
response (spec/00_scope.md rule R17, spec/30_encoding.md rule R60), and the shared shape of a command: one ctrl value
driven into state_register and one response (R87). The block has no traps and no trap return (spec/60_exceptions.md
rules R171, R172); what stands in their place is raiseError (R168). -/

namespace Sys2Proof.Machine

/-- ctrl = HOLD (R82). -/
def ctrlHold : BitVec 2 := 0b00#2

/-- ctrl = LOAD (R82). -/
def ctrlLoad : BitVec 2 := 0b01#2

/-- ctrl = SHIFT (R82). -/
def ctrlShift : BitVec 2 := 0b10#2

/-- sout, the bit a shift evicts, combinational from q (R83). -/
def shiftOut (c : Configuration) (q : BitVec c.n) : Bool :=
  match c.dir with
  | .right => q.getLsbD 0
  | .left => q.getLsbD (c.n - 1)

/-- The register after SHIFT with this sin (R83). -/
def shiftRegister (c : Configuration) (sin : Bool) (q : BitVec c.n) : BitVec c.n :=
  match c.dir with
  | .right => (q >>> 1) ||| (zextBit c.n sin <<< (c.n - 1))
  | .left => (q <<< 1) ||| zextBit c.n sin

/-- One rising edge of state_register: reset first (R86), else by ctrl; the reserved ctrl faults (R82, X4). -/
def stateRegisterEdge (c : Configuration) (rst : Bool) (ctrl : BitVec 2) (d : BitVec c.n) (sin : Bool)
    (q : BitVec c.n) : Host.Outcome (BitVec c.n) Fault Refusal :=
  if rst then .next (resetValue c)
  else
    match ctrl.toNat with
    | 0b00 => .next q
    | 0b01 => .next d
    | 0b10 => .next (shiftRegister c sin q)
    | _ => .fault .reservedCtrl

/-- respond(data, err): the command's one response (R17, R60). -/
def respond (data : Bus) (err : ErrBits) (s : State) : State :=
  { s with rspValid := true, rspData := data, rspErr := err }

/-- The effect of a command: the engine drives state_register with ctrl, d and sin (R87) and gives the response. -/
def command (s : State) (ctrl : BitVec 2) (d : BitVec s.cfg.n) (sin : Bool) (data : Bus) (err : ErrBits) :
    Host.Outcome State Fault Refusal :=
  match stateRegisterEdge s.cfg false ctrl d sin s.q with
  | .next q' => .next (respond data err { s with q := q' })
  | .fault f => .fault f
  | .refused r => .refused r

/-- raise Error(code): the response (0, code) with STATE held (R168, R87). -/
def raiseError (code : ErrBits) (s : State) : Host.Outcome State Fault Refusal :=
  command s ctrlHold 0 false 0 code

end Sys2Proof.Machine
end

