-- ==== Sys2Proof/Machine/Errors.lean ====
section
/-! DEFINITION. Machine/Errors.lean: the reserved opcodes (spec/60_exceptions.md rules R166, R168). -/

namespace Sys2Proof.Machine

/-- op 0x8 to 0xF: the ILLEGAL_OP response, STATE held (R62, R166, R168). -/
def execReserved (s : State) : Host.Outcome State Fault Refusal := raiseError errIllegalOp s

end Sys2Proof.Machine
end

