-- ==== Sys2Proof/Machine/StateOps.lean ====
section
/-! DEFINITION. Machine/StateOps.lean: LOAD, VALUE and STATE (spec/40_state_ops.md rules R84 to R92). -/

namespace Sys2Proof.Machine

/-- LOAD: STATE <- seed[N-1:0], respond(0, OK) (R84, R85). -/
def execLoad (seed : Bus) (s : State) : Host.Outcome State Fault Refusal :=
  command s ctrlLoad (seedOperand s.cfg seed) false 0 errOk

/-- VALUE: respond(zext_128(zext_VW(STATE)), OK), STATE held (R87, R88). -/
def execValue (s : State) : Host.Outcome State Fault Refusal :=
  command s ctrlHold 0 false (zextBus (s.q.setWidth (valueWidth s.cfg.n))) errOk

/-- STATE: respond(zext_128(STATE), OK), STATE held (R87, R92). -/
def execState (s : State) : Host.Outcome State Fault Refusal :=
  command s ctrlHold 0 false (zextBus s.q) errOk

end Sys2Proof.Machine
end

