-- ==== Sys2Proof/Machine/Feedback.lean ====
section
/-! DEFINITION. Machine/Feedback.lean: the sub-block feedback_xor_tree, a tap mask and a parity tree
(spec/41_feedback.md rules R100 to R102). -/

namespace Sys2Proof.Machine

/-- The exclusive-or of v[0] to v[k-1]. -/
def parityBelow {n : Nat} (v : BitVec n) : Nat → Bool
  | 0 => false
  | k + 1 => xor (parityBelow v k) (v.getLsbD k)

/-- fb(s), the parity of the tapped bits: XOR over i of (s[i] & TAPMASK[i]) (R102). -/
def fb (c : Configuration) (s : BitVec c.n) : Bool := parityBelow (s &&& tapMask c) c.n

end Sys2Proof.Machine
end

