-- ==== Sys2Proof/Machine/SingleStep.lean ====
section
/-! DEFINITION. Machine/SingleStep.lean: the single step of each variant (spec/42_stepping.md rules R115 to R120,
spec/43_inverted.md rules R151 to R153) and the loop of bulk stepping (R125, R128). -/

namespace Sys2Proof.Machine

/-- The RIGHT step (R117): the state after it and the output bit. -/
def stepR (c : Configuration) (s : BitVec c.n) : BitVec c.n × Bool :=
  ((s >>> 1) ||| (zextBit c.n (fb c s) <<< (c.n - 1)), s.getLsbD 0)

/-- The plain LEFT step (R118). -/
def stepL (c : Configuration) (s : BitVec c.n) : BitVec c.n × Bool :=
  ((s <<< 1) ||| zextBit c.n (fb c s), s.getLsbD (c.n - 1))

/-- The inverted step (R151): the inserted bit is the negated feedback, and it is the output. -/
def stepI (c : Configuration) (s : BitVec c.n) : BitVec c.n × Bool :=
  ((s <<< 1) ||| zextBit c.n (!fb c s), !fb c s)

/-- The single step of the configured variant (R115). -/
def stepC (c : Configuration) (s : BitVec c.n) : BitVec c.n × Bool :=
  match c.dir, c.invert with
  | .right, _ => stepR c s
  | .left, false => stepL c s
  | .left, true => stepI c s

/-- sin of a single step: the feedback (R120), or its negation in the inverted variant (R153). -/
def insertedBit (c : Configuration) (s : BitVec c.n) : Bool := if c.invert then !fb c s else fb c s

/-- The output of a single step: sout (R120), or the inserted bit in the inverted variant (R152, R153). -/
def outputBit (c : Configuration) (s : BitVec c.n) : Bool := if c.invert then !fb c s else shiftOut c s

/-- The loop of STEPN (R128): k more single steps, the next output going to bit i of r. -/
def bulkLoop (c : Configuration) : Nat → Nat → BitVec c.n → Bus → BitVec c.n × Bus
  | 0, _, s, r => (s, r)
  | k + 1, i, s, r =>
    match stepC c s with
    | (s', o) => bulkLoop c k (i + 1) s' (packBit r i o)

/-- k single steps from s: the state after them, and their outputs packed LSB-first (R125). -/
def bulk (c : Configuration) (k : Nat) (s : BitVec c.n) : BitVec c.n × Bus := bulkLoop c k 0 s 0

end Sys2Proof.Machine
end

