-- ==== Sys2Proof/Machine/Stepping.lean ====
section
/-! DEFINITION. Machine/Stepping.lean: STEP, STEPN, NEXT16, NEXT32 and NEXT64 in every variant (spec/42_stepping.md
rules R121 to R137, spec/43_inverted.md rule R155). -/

namespace Sys2Proof.Machine

/-- STEP: one shift of state_register with the variant's inserted bit, respond(zext_128(output), OK) (R87, R120, R121,
R153, R155). -/
def execStep (s : State) : Host.Outcome State Fault Refusal :=
  command s ctrlShift 0 (insertedBit s.cfg s.q) (zextBit 128 (outputBit s.cfg s.q)) errOk

/-- STEPN: COUNT_RANGE above 128, else n single steps with their outputs packed LSB-first (R128, R167). The register is
driven once, with the state after the steps (R87, D35). -/
def execStepn (count : Bus) (s : State) : Host.Outcome State Fault Refusal :=
  if 128 < countOperand count then raiseError errCountRange s
  else
    command s ctrlLoad (bulk s.cfg (countOperand count) s.q).1 false (bulk s.cfg (countOperand count) s.q).2 errOk

/-- NEXT16: 16 single steps, the result narrowed to 16 bits (R134). -/
def execNext16 (s : State) : Host.Outcome State Fault Refusal :=
  command s ctrlLoad (bulk s.cfg 16 s.q).1 false (narrow 16 (bulk s.cfg 16 s.q).2) errOk

/-- NEXT32: 32 single steps, the result narrowed to 32 bits (R135). -/
def execNext32 (s : State) : Host.Outcome State Fault Refusal :=
  command s ctrlLoad (bulk s.cfg 32 s.q).1 false (narrow 32 (bulk s.cfg 32 s.q).2) errOk

/-- NEXT64: 64 single steps, the result narrowed to 64 bits (R136). -/
def execNext64 (s : State) : Host.Outcome State Fault Refusal :=
  command s ctrlLoad (bulk s.cfg 64 s.q).1 false (narrow 64 (bulk s.cfg 64 s.q).2) errOk

end Sys2Proof.Machine
end

