-- ==== Sys2Proof/Machine/Dispatch.lean ====
section
/-! DEFINITION. Machine/Dispatch.lean: the meaning of each command (spec/30_encoding.md rules R55, R56). A `_` stands
for an argument the command ignores (R59). -/

namespace Sys2Proof.Machine

def exec (i : Instr) (s : State) : Host.Outcome State Fault Refusal :=
  match i with
  | .load seed => Sys2Proof.Machine.execLoad seed s
  | .step _ => Sys2Proof.Machine.execStep s
  | .stepn count => Sys2Proof.Machine.execStepn count s
  | .next16 _ => Sys2Proof.Machine.execNext16 s
  | .next32 _ => Sys2Proof.Machine.execNext32 s
  | .next64 _ => Sys2Proof.Machine.execNext64 s
  | .value _ => Sys2Proof.Machine.execValue s
  | .state _ => Sys2Proof.Machine.execState s
  | .reserved _ _ => Sys2Proof.Machine.execReserved s

end Sys2Proof.Machine
end

