-- ==== Sys2Proof/Machine/Ports.lean ====
section
/-! DEFINITION. Machine/Ports.lean: the output ports that are functions of the state after an edge
(spec/10_state.md rules R25 to R29, spec/70_reset_and_hazards.md rules R196, R201, R207). rsp_valid, rsp_data and
rsp_err are fields of State. -/

namespace Sys2Proof.Machine

/-- busy: a command is in flight (R25, R199). -/
def State.busy (s : State) : Bool := s.seq.isSome

/-- cmd_ready: not busy, and rst was 0 at the most recent edge (R26). -/
def State.cmdReady (s : State) : Bool := !s.busy && !s.rstSeen

/-- state_q: STATE bit for bit, but a free value in a busy cycle (R28, R201, R207). -/
def State.stateQ (s : State) : BitVec s.cfg.n :=
  if s.busy then Config.freeStateQ s.cfg.n s.draws else s.q

/-- value_q: zext_VW(STATE), but a free value in a busy cycle (R29, R201, R207). -/
def State.valueQ (s : State) : BitVec (valueWidth s.cfg.n) :=
  if s.busy then Config.freeValueQ (valueWidth s.cfg.n) s.draws else s.q.setWidth (valueWidth s.cfg.n)

end Sys2Proof.Machine
end

