-- ==== Sys2Proof/Machine/Cycle.lean ====
section
/-! DEFINITION. Machine/Cycle.lean: what one rising edge of clk does (spec/70_reset_and_hazards.md rules R190 to R200):
a reset edge, an edge of a command in flight, an accepting edge, or an edge at which nothing happens. -/

namespace Sys2Proof.Machine

/-- The pins of an idle host. -/
def idlePins : Pins := ⟨false, false, 0, 0⟩

/-- The input pins at the coming edge (R53, R197, R208). -/
def State.pins (s : State) : Pins :=
  match s.host with
  | [] => idlePins
  | .drive p :: _ => p
  | .issue op arg :: _ => ⟨false, true, op, arg⟩

/-- Whether the coming edge accepts a command: cmd_valid = 1, cmd_ready = 1 and rst = 0 (R26, R197). -/
def State.accepts (s : State) : Bool := s.pins.cmdValid && s.cmdReady && !s.pins.rst

/-- The command word on the pins (R54). -/
def State.word (s : State) : CmdWord := cmdWord s.pins.cmdOp s.pins.cmdArg

/-- The host's actions after the coming edge: `issue` is held until its word is accepted (R208). -/
def State.hostAfter (s : State) : List HostAction :=
  match s.host with
  | [] => []
  | .drive _ :: rest => rest
  | .issue op arg :: rest => if s.accepts then rest else .issue op arg :: rest

/-- No response in this cycle: rsp_valid = 0, and rsp_data and rsp_err are whatever they are (R27, U4). -/
def silent (s : State) : State :=
  { s with rspValid := false, rspData := Config.freeRspData s.draws, rspErr := Config.freeRspErr s.draws }

/-- What every edge does beside the rest: the host moves on, rst is noted (R26), the next draws are fresh. `before` is
the state the edge began in. -/
def tick (before : State) (rst : Bool) (s : State) : State :=
  { s with rstSeen := rst, host := before.hostAfter, draws := before.draws + 1 }

/-- The answer of a part of the step, carried on. -/
def mapNext {α β φ ρ : Type} (f : α → β) : Host.Outcome α φ ρ → Host.Outcome β φ ρ
  | .next a => .next (f a)
  | .fault r => .fault r
  | .refused r => .refused r

/-- An edge with rst = 1: every element takes its reset value, and a command in flight is abandoned (R86, R190,
R192). -/
def edgeReset (s : State) : Host.Outcome State Fault Refusal :=
  mapNext (fun q' => tick s true (silent { s with q := q', seq := none }))
    (stateRegisterEdge s.cfg true ctrlHold 0 false s.q)

/-- An edge with rst = 0 at which no command is accepted and none is in flight: STATE holds (R80, R82). -/
def edgeIdle (s : State) : Host.Outcome State Fault Refusal :=
  mapNext (fun q' => tick s false (silent { s with q := q' }))
    (stateRegisterEdge s.cfg false ctrlHold 0 false s.q)

/-- An edge with rst = 0 during the command f in flight: its response cycle begins, or it has one edge less to go
(R198, R199). -/
def edgeBusy (f : InFlight) (s : State) : Host.Outcome State Fault Refusal :=
  if f.left ≤ 1 then .next (tick s false (respond f.rsp.data f.rsp.err { s with seq := none }))
  else .next (tick s false (silent { s with seq := some { f with left := f.left - 1 } }))

/-- The cycle after the accepting edge of i, whose effect on STATE and response t holds: with LAT = 1 it is the response
cycle, else the response waits LAT - 1 edges (R198, R199; notes/assumptions/3.md). -/
def launch (i : Instr) (t : State) : State :=
  match extraLatency t.cfg i.opcode i.arg with
  | 0 => t
  | e + 1 => silent { t with seq := some ⟨i, e + 1, ⟨t.rspData, t.rspErr⟩⟩ }

/-- An edge that accepts the word on the pins (R197). -/
def edgeAccept (s : State) : Host.Outcome State Fault Refusal :=
  mapNext (fun t => tick s false (launch (decode s.word) t)) (exec (decode s.word) s)

/-- One rising edge: reset has priority (R169, R192), then the command in flight (R45), then acceptance. -/
def edge (s : State) : Host.Outcome State Fault Refusal :=
  if s.pins.rst then edgeReset s
  else
    match s.seq with
    | some f => edgeBusy f s
    | none => if s.accepts then edgeAccept s else edgeIdle s

/-- The host presents this word at the coming edge of a ready block. -/
def present (s : State) (w : CmdWord) : State :=
  { s with rstSeen := false, seq := none, host := .drive ⟨false, true, opField w, argField w⟩ :: s.host }

end Sys2Proof.Machine
end

