-- ==== Sys2Proof/Machine/Step.lean ====
section
/-! DEFINITION. Machine/Step.lean: one step of the machine is one rising edge of clk (spec/70_reset_and_hazards.md rule
R196). -/

namespace Sys2Proof.Machine

/-- One rising edge of clk. -/
def step (s : State) : Host.Outcome State Fault Refusal := edge s

/-- s with the command word w, of nbits given bits and zeros above, on the pins at the coming edge, the block ready for
it (R195, R197; notes/assumptions/8.md). -/
def State.withFetchWord (s : State) (nbits w : Nat) : State := present s (BitVec.ofNat 132 (w % 2 ^ nbits))

end Sys2Proof.Machine
end

