-- ==== Sys2Proof/Machine/Asm.lean ====
section
/-! DEFINITION. Machine/Asm.lean: the assembler syntax and the pseudo-commands (spec/30_encoding.md rules R63, R64), as
what the host is to do with the command port. Text is a list of characters, one list a line. -/

namespace Sys2Proof.Machine

/-- A line of a command sequence (R63, R64). -/
inductive AsmLine where
  | blank
  | command (i : Instr)
  | advance (k : Nat)
  | idle (c : Nat)
  deriving DecidableEq, Repr

/-- rest with the word acc, if there is one, before it. -/
def asmFlush (acc : List Char) (rest : List (List Char)) : List (List Char) :=
  match acc with
  | [] => rest
  | _ => acc :: rest

/-- The words of a line, in lower case, up to a `;`; a comma is a word of its own. -/
def asmWords : List Char → List Char → List (List Char)
  | [], acc => asmFlush acc []
  | c :: cs, acc =>
    if c = ';' then asmFlush acc []
    else if c = ' ' ∨ c = '\t' then asmFlush acc (asmWords cs [])
    else if c = ',' then asmFlush acc ([','] :: asmWords cs [])
    else asmWords cs (acc ++ [c.toLower])

/-- The value of a digit, decimal or hexadecimal. -/
def asmDigit (c : Char) : Option Nat :=
  if '0' ≤ c ∧ c ≤ '9' then some (c.toNat - '0'.toNat)
  else if 'a' ≤ c ∧ c ≤ 'f' then some (c.toNat - 'a'.toNat + 10)
  else none

/-- The number that these digits continue. -/
def asmDigits (base : Nat) : List Char → Nat → Option Nat
  | [], v => some v
  | c :: cs, v =>
    match asmDigit c with
    | some d => if d < base then asmDigits base cs (v * base + d) else none
    | none => none

/-- An unsigned integer, in decimal or with the prefix 0x in hexadecimal: the form R63 gives <imm>. -/
def asmNumber : List Char → Option Nat
  | [] => none
  | '0' :: 'x' :: c :: cs => asmDigits 16 (c :: cs) 0
  | cs => asmDigits 10 cs 0

/-- A number below 2^w (R63). -/
def asmBits (w : Nat) (cs : List Char) : Option (BitVec w) :=
  match asmNumber cs with
  | some v => if v < 2 ^ w then some (BitVec.ofNat w v) else none
  | none => none

/-- The commands without an operand, written with argument 0 (R63). -/
def asmPlain : List (List Char × Instr) :=
  [(['s', 't', 'e', 'p'], .step 0), (['n', 'e', 'x', 't', '1', '6'], .next16 0),
    (['n', 'e', 'x', 't', '3', '2'], .next32 0), (['n', 'e', 'x', 't', '6', '4'], .next64 0),
    (['v', 'a', 'l', 'u', 'e'], .value 0), (['s', 't', 'a', 't', 'e'], .state 0)]

/-- A line of assembler text, or none where it is not one (R63, R64). DESIGN CHOICE: the operands <op> and <arg> of
.cmd, <k> of ADVANCE and <c> of IDLE, whose written form the spec leaves open, are read in the form of <imm>
(notes/assumptions/24.md). -/
def asmLine (line : List Char) : Option AsmLine :=
  match asmWords line [] with
  | [] => some .blank
  | [w] => (asmPlain.find? (fun p => p.1 == w)).map (fun p => .command p.2)
  | [w, x] =>
    if w = ['l', 'o', 'a', 'd'] then (asmBits 128 x).map (fun a => .command (.load a))
    else if w = ['s', 't', 'e', 'p', 'n'] then (asmBits 128 x).map (fun a => .command (.stepn a))
    else if w = ['a', 'd', 'v', 'a', 'n', 'c', 'e'] then (asmNumber x).map .advance
    else if w = ['i', 'd', 'l', 'e'] then (asmNumber x).map .idle
    else none
  | [w, x, comma, y] =>
    if w = ['.', 'c', 'm', 'd'] ∧ comma = [','] then
      match asmBits 4 x, asmBits 128 y with
      | some op, some arg => some (.command (decodeFields op arg))
      | _, _ => none
    else none
  | _ => none

/-- ADVANCE k: floor(k/128) copies of STEPN 128, then STEPN (k mod 128) where that is not 0 (R64). -/
def advanceCommands (k : Nat) : List Instr :=
  List.replicate (k / 128) (.stepn 128) ++
    if k % 128 = 0 then [] else [.stepn (BitVec.ofNat 128 (k % 128))]

/-- The host holds the command until it is accepted (R208). -/
def issueOf (i : Instr) : HostAction := .issue i.opcode i.arg

/-- What the host does for a line (R63, R64). -/
def AsmLine.actions : AsmLine → List HostAction
  | .blank => []
  | .command i => [issueOf i]
  | .advance k => (advanceCommands k).map issueOf
  | .idle c => List.replicate c (.drive idlePins)

/-- What the host does for a command sequence, or none where a line of it is not assembler text (R63). -/
def assemble : List (List Char) → Option (List HostAction)
  | [] => some []
  | line :: lines =>
    match asmLine line, assemble lines with
    | some l, some rest => some (l.actions ++ rest)
    | _, _ => none

end Sys2Proof.Machine
end

