-- ==== Sys2Proof/Safety.lean ====
section
/-! DEFINITION. Safety.lean: what a run shows and what a claim may ask of it: the observation of a command sequence
(spec/70_reset_and_hazards.md rule R209), the faults a model records (spec/92_eei_decisions.md D31), and the invariant
of the state after an edge. -/

namespace Sys2Proof.Safety

open Sys2Proof.Machine

/-- The response of a cycle, if it is a response cycle (R27). -/
def responseOf (s : State) : Option Response := if s.rspValid then some ⟨s.rspData, s.rspErr⟩ else none

/-- The fault a model records in a cycle (decision D31): the response's error, if any. It stops nothing. -/
def recordedFault (s : State) : Option Fault := (responseOf s).bind (fun r => faultOf r.err)

/-- k edges from s: the responses of the cycles after them, in order, and the last state; none where a step stops. -/
def runEdges : Nat → State → Option (List Response × State)
  | 0, s => some ([], s)
  | k + 1, s =>
    match Machine.step s with
    | .next t => (runEdges k t).map (fun p => ((responseOf t).toList ++ p.1, p.2))
    | .fault _ => none
    | .refused _ => none

/-- The commands performed one after the other, each as the atomic effect of its rule (R45, R47): their responses, in
order, and the state after the last (R209). None where a command stops. -/
def perform : List Instr → State → Option (List Response × State)
  | [], s => some ([], s)
  | i :: is, s =>
    match Machine.exec i s with
    | .next t => (perform is t).map (fun p => (⟨t.rspData, t.rspErr⟩ :: p.1, p.2))
    | .fault _ => none
    | .refused _ => none

/-- The edges that a command sequence takes when each command is accepted as soon as it can be: the sum of the
latencies (R198, R199). -/
def totalLatency (c : Configuration) : List Instr → Nat
  | [] => 0
  | i :: is => latency c i.opcode i.arg + totalLatency c is

/-- What holds of the state after every edge of a run. -/
structure Inv (s : State) : Prop where
  /-- in a response cycle no command is in flight, so busy = 0 (R199) -/
  valid_idle : s.rspValid = true → s.seq = none
  /-- there is no response in a cycle after an edge with rst = 1 (R190) -/
  valid_noReset : s.rspValid = true → s.rstSeen = false
  /-- a response never carries the code 0b11 (R61) -/
  valid_code : s.rspValid = true → s.rspErr ≠ 0b11#2
  /-- an error response carries no data (R166, R167) -/
  valid_errorData : s.rspValid = true → s.rspErr ≠ errOk → s.rspData = 0
  /-- after an edge with rst = 1 nothing is in flight (R190) -/
  reset_idle : s.rstSeen = true → s.seq = none
  /-- after an edge with rst = 1 STATE is RESET_SEED mod 2^N (R34) -/
  reset_value : s.rstSeen = true → s.q = resetValue s.cfg
  /-- a command in flight is a command word, with some but fewer than LAT edges to go (R198, R199) -/
  flight_left : ∀ f, s.seq = some f → WellFormed f.instr = true ∧ 1 ≤ f.left ∧
    f.left < latency s.cfg f.instr.opcode f.instr.arg
  /-- the response it will give has the code of its command (R169), and no data with an error -/
  flight_response : ∀ f, s.seq = some f → f.rsp.err = errOf f.instr ∧ (f.rsp.err ≠ errOk → f.rsp.data = 0)
  /-- that response is its rule's: performing the command on some state of this configuration leaves the STATE held now
  and gives it (R45, R198) -/
  flight_rule : ∀ f, s.seq = some f → ∃ s₀ t, s₀.cfg = s.cfg ∧ Machine.exec f.instr s₀ = .next t ∧
    t.q.toNat = s.q.toNat ∧ f.rsp = ⟨t.rspData, t.rspErr⟩

end Sys2Proof.Safety
end

