-- ==== Sys2Proof/Certificates/Slice0/Obligations.lean ====
section
/-! DEFINITION. Certificates/Slice0/Obligations.lean: the statements for the provers. Each docstring names the rules of
spec/ it is about. Where a command's result is stated, the next state is written as an update of the state before, so
the same equation says that the command completes and what it leaves unchanged. No statement rests on a free value:
where one occurs (Config.freeRspData and the others), the statement holds whatever it is. -/

open Sys2Proof Sys2Proof.Machine Sys2Proof.Safety

namespace Sys2Proof.Claims

/-- The position of tap t, as rule R101 writes it. -/
def tapPosition (c : Configuration) (t : Nat) : Nat := if c.dir = Config.Dir.right then c.n - t else t - 1

/-- XOR over the taps of s[position], the first line of rule R102. -/
def tapXor (c : Configuration) (s : BitVec c.n) : Bool :=
  c.taps.foldr (fun t b => xor (s.getLsbD (tapPosition c t)) b) false

/-- STATE after k single steps. -/
def stateAfterSteps (c : Configuration) (k : Nat) (s : BitVec c.n) : BitVec c.n := (fun x => (stepC c x).1)^[k] s

/-- The output of the step after k single steps. -/
def outputOfStep (c : Configuration) (k : Nat) (s : BitVec c.n) : Bool := (stepC c (stateAfterSteps c k s)).2

/-- The host asserts no reset at its coming edges. -/
def ResetFree (host : List HostAction) : Prop := ∀ p, HostAction.drive p ∈ host → p.rst = false

/-- The commands that write STATE: LOAD and the stepping commands (R80). -/
def writesState : Instr → Bool
  | .load _ | .step _ | .stepn _ | .next16 _ | .next32 _ | .next64 _ => true
  | .value _ | .state _ | .reserved _ _ => false

/-- The configuration with INVERT cleared. -/
abbrev plain (c : Configuration) : Configuration :=
  ⟨{ c.val with invert := false }, c.property.1, c.property.2.1, c.property.2.2.1, c.property.2.2.2.1,
    c.property.2.2.2.2.1, Or.inl rfl⟩

end Sys2Proof.Claims

open Sys2Proof.Claims

/-! ## Configuration -/

/-- R16, R165: elaboration refuses exactly the illegal configurations, and gives back the legal ones as written. -/
def Obligations.ElaborationRefusesExactlyTheIllegal : Prop :=
  ∀ p : Config.Params,
    ((∃ e, elaborate p = .error e) ↔
      (p.n < 1 ∨ 128 < p.n) ∨ p.taps = [] ∨ (∃ t ∈ p.taps, t < 1 ∨ p.n < t) ∨ ¬ p.taps.Nodup ∨
        (p.invert = true ∧ p.dir = Config.Dir.right)) ∧
    ∀ c, elaborate p = .ok c → c.val = p

/-- R14: VW is the least of 8, 16, 32, 64, 128 that is not below N. -/
def Obligations.ValueWidthIsNarrowest : Prop :=
  ∀ c : Configuration, valueWidth c.n ∈ [8, 16, 32, 64, 128] ∧ c.n ≤ valueWidth c.n ∧
    ∀ w ∈ [8, 16, 32, 64, 128], c.n ≤ w → valueWidth c.n ≤ w

/-- R15, R101: a bit of TAPMASK is set exactly when a tap selects it, and as many bits are set as there are taps. -/
def Obligations.TapMaskSelectsExactlyTheTaps : Prop :=
  ∀ c : Configuration,
    (∀ i, (tapMask c).getLsbD i = true ↔ ∃ t ∈ c.taps, i = tapPosition c t) ∧
    ((List.range c.n).filter (fun i => (tapMask c).getLsbD i)).length = c.taps.length

/-- R103: every tap position lies in [0, N-1], and the feedback depends on nothing but the tapped bits. -/
def Obligations.FeedbackReadsOnlyTappedBits : Prop :=
  ∀ c : Configuration, (∀ t ∈ c.taps, tapPosition c t < c.n) ∧
    ∀ a b : BitVec c.n, (∀ t ∈ c.taps, a.getLsbD (tapPosition c t) = b.getLsbD (tapPosition c t)) → fb c a = fb c b

/-! ## The feedback -/

/-- R102: the feedback is the exclusive-or over the taps, and the exclusive-or over all bits masked by TAPMASK. -/
def Obligations.FeedbackIsXorOverTaps : Prop :=
  ∀ (c : Configuration) (s : BitVec c.n), fb c s = tapXor c s ∧
    fb c s = (List.range c.n).foldr (fun i b => xor (s.getLsbD i && (tapMask c).getLsbD i) b) false

/-- R104: the order in which TAPS is listed does not matter. -/
def Obligations.FeedbackIgnoresTapOrder : Prop :=
  ∀ (c : Configuration) (taps' : List Nat) (_ : taps'.Perm c.taps) (h : Config.Legal { c.val with taps := taps' })
    (s : BitVec c.n), fb ⟨{ c.val with taps := taps' }, h⟩ s = fb c s

/-- R105, R106, R107: the feedback of 0 is 0, that of all ones is the parity of the number of taps, and it is
linear. -/
def Obligations.FeedbackIsLinear : Prop :=
  ∀ c : Configuration, fb c (0#c.n) = false ∧ fb c (BitVec.allOnes c.n) = decide (c.taps.length % 2 = 1) ∧
    ∀ a b : BitVec c.n, fb c (a ^^^ b) = xor (fb c a) (fb c b)

/-! ## The sub-block state_register -/

/-- R82, R86: HOLD, LOAD and SHIFT at an edge with rst = 0, and ctrl = 0b11 faults there, which no command of the
engine drives; at an edge with rst = 1 the register takes RESET_SEED mod 2^N whatever ctrl, d and sin are. -/
def Obligations.RegisterCtrlTable : Prop :=
  (∀ (i : Instr) (s : State), exec i s ≠ .fault .reservedCtrl) ∧
  ∀ (c : Configuration) (d : BitVec c.n) (sin : Bool) (q : BitVec c.n),
    stateRegisterEdge c false 0b00#2 d sin q = .next q ∧
    stateRegisterEdge c false 0b01#2 d sin q = .next d ∧
    stateRegisterEdge c false 0b10#2 d sin q = .next (shiftRegister c sin q) ∧
    stateRegisterEdge c false 0b11#2 d sin q = .fault .reservedCtrl ∧
    ∀ ctrl : BitVec 2, ∃ q', stateRegisterEdge c true ctrl d sin q = .next q' ∧ q'.toNat = c.resetSeed % 2 ^ c.n

/-- R83: SHIFT moves every bit one position, sin lands in the vacated one, and sout is the evicted bit. -/
def Obligations.RegisterShiftMovesEveryBit : Prop :=
  ∀ (c : Configuration) (sin : Bool) (q : BitVec c.n),
    (c.dir = Config.Dir.right → shiftOut c q = q.getLsbD 0 ∧
      (∀ i, i + 1 < c.n → (shiftRegister c sin q).getLsbD i = q.getLsbD (i + 1)) ∧
      (shiftRegister c sin q).getLsbD (c.n - 1) = sin) ∧
    (c.dir = Config.Dir.left → shiftOut c q = q.getLsbD (c.n - 1) ∧
      (∀ i, i + 1 < c.n → (shiftRegister c sin q).getLsbD (i + 1) = q.getLsbD i) ∧
      (shiftRegister c sin q).getLsbD 0 = sin)

/-! ## Encoding -/

/-- R54, R55: decoding the word of a well-formed command gives the command back, with its whole argument. -/
def Obligations.DecodeOfEncode : Prop := ∀ i : Instr, WellFormed i = true → decode (encode i) = i

/-- R56: every 132-bit word decodes to a well-formed command, whose word it is. -/
def Obligations.EncodeOfDecode : Prop := ∀ w : CmdWord, WellFormed (decode w) = true ∧ encode (decode w) = w

/-- R55: the opcode map, for every argument. -/
def Obligations.OpcodeMap : Prop :=
  ∀ arg : Bus,
    decode (arg ++ 0x0#4) = .load arg ∧ decode (arg ++ 0x1#4) = .step arg ∧ decode (arg ++ 0x2#4) = .stepn arg ∧
    decode (arg ++ 0x3#4) = .next16 arg ∧ decode (arg ++ 0x4#4) = .next32 arg ∧ decode (arg ++ 0x5#4) = .next64 arg ∧
    decode (arg ++ 0x6#4) = .value arg ∧ decode (arg ++ 0x7#4) = .state arg ∧
    ∀ op : Opcode, 8 ≤ op.toNat → decode (arg ++ op) = .reserved op arg

/-- R54, R55, 95_test_vectors.md: some command words written out. -/
def Obligations.SampleWords : Prop :=
  decode 0x1234ACE10#132 = .load 0x1234ACE1 ∧ decode 0x1#132 = .step 0 ∧ decode 0x812#132 = .stepn 129 ∧
  decode 0x3#132 = .next16 0 ∧ decode 0x4#132 = .next32 0 ∧ decode 0x5#132 = .next64 0 ∧
  decode 0x6#132 = .value 0 ∧ decode 0x57#132 = .state 5 ∧ decode 0x58#132 = .reserved 8 5 ∧
  decode 0xF#132 = .reserved 0xF 0

/-- R59: the argument of the commands that take no operand changes nothing. -/
def Obligations.IgnoredArgumentChangesNothing : Prop :=
  ∀ (a b : Bus) (op op' : Opcode) (s : State),
    exec (.step a) s = exec (.step b) s ∧ exec (.next16 a) s = exec (.next16 b) s ∧
    exec (.next32 a) s = exec (.next32 b) s ∧ exec (.next64 a) s = exec (.next64 b) s ∧
    exec (.value a) s = exec (.value b) s ∧ exec (.state a) s = exec (.state b) s ∧
    exec (.reserved op a) s = exec (.reserved op' b) s

/-! ## LOAD, VALUE, STATE and the errors -/

/-- R84, R57: LOAD, opcode 0x0, sets STATE to the low N bits of its argument and responds (0, OK). -/
def Obligations.LoadSetsState : Prop :=
  ∀ (seed : Bus) (s : State), decode (seed ++ 0x0#4) = .load seed ∧ ∃ q' : BitVec s.cfg.n,
    exec (.load seed) s = .next { s with q := q', rspValid := true, rspData := 0, rspErr := 0b00#2 } ∧
    q'.toNat = seed.toNat % 2 ^ s.cfg.n ∧ ∀ i, i < s.cfg.n → q'.getLsbD i = seed.getLsbD i

/-- R46: a second LOAD with the same argument leaves the same state. -/
def Obligations.LoadIsIdempotent : Prop :=
  ∀ (seed : Bus) (s t : State), exec (.load seed) s = .next t → exec (.load seed) t = .next t

/-- R88: VALUE, opcode 0x6, responds with STATE as an unsigned number, below 2^N, and leaves STATE unchanged. -/
def Obligations.ValueReturnsState : Prop :=
  ∀ (a : Bus) (s : State), decode (a ++ 0x6#4) = .value a ∧ ∃ data : Bus,
    exec (.value a) s = .next { s with rspValid := true, rspData := data, rspErr := 0b00#2 } ∧
    data.toNat = s.q.toNat ∧ data.toNat < 2 ^ s.cfg.n

/-- R92: STATE, opcode 0x7, responds with bit i = STATE[i] for i < N and 0 elsewhere, as VALUE does. -/
def Obligations.StateReturnsState : Prop :=
  ∀ (a b : Bus) (s : State), decode (a ++ 0x7#4) = .state a ∧ exec (.state a) s = exec (.value b) s ∧ ∃ data : Bus,
    exec (.state a) s = .next { s with rspValid := true, rspData := data, rspErr := 0b00#2 } ∧
    ∀ i, data.getLsbD i = if i < s.cfg.n then s.q.getLsbD i else false

/-- R62, R166: a reserved opcode gets (0, ILLEGAL_OP) and nothing else happens. -/
def Obligations.ReservedIsIllegalOp : Prop :=
  ∀ (op : Opcode) (a : Bus) (s : State),
    exec (.reserved op a) s = .next { s with rspValid := true, rspData := 0, rspErr := 0b01#2 }

/-- R167: a count above 128 gets (0, COUNT_RANGE) and nothing is stepped. -/
def Obligations.CountAbove128IsRefused : Prop :=
  ∀ (count : Bus) (s : State), 128 < count.toNat →
    exec (.stepn count) s = .next { s with rspValid := true, rspData := 0, rspErr := 0b10#2 }

/-- R176: LOAD of another instance of the same width with the VALUE response of a first one copies its state. -/
def Obligations.LoadOfValueCopiesState : Prop :=
  ∀ (s t : State) (a : Bus), s.cfg.n = t.cfg.n → ∃ s' t',
    exec (.value a) s = .next s' ∧ exec (.load s'.rspData) t = .next t' ∧ t'.q.toNat = s.q.toNat ∧ t'.cfg = t.cfg

/-! ## Single steps -/

/-- R117, R119, R121: the RIGHT step. STATE[0] is the output, the feedback over the taps enters at N-1, every other bit
moves one position down. -/
def Obligations.StepRight : Prop :=
  ∀ (a : Bus) (s : State), s.cfg.dir = Config.Dir.right → ∃ q' : BitVec s.cfg.n,
    exec (.step a) s = .next { s with
      q := q', rspValid := true, rspData := if s.q.getLsbD 0 then 1 else 0, rspErr := 0b00#2 } ∧
    (∀ i, i + 1 < s.cfg.n → q'.getLsbD i = s.q.getLsbD (i + 1)) ∧ q'.getLsbD (s.cfg.n - 1) = tapXor s.cfg s.q

/-- R118, R119, R121: the plain LEFT step. STATE[N-1] is the output, the feedback over the taps enters at 0, every
other bit moves one position up. -/
def Obligations.StepLeft : Prop :=
  ∀ (a : Bus) (s : State), s.cfg.dir = Config.Dir.left → s.cfg.invert = false → ∃ q' : BitVec s.cfg.n,
    exec (.step a) s = .next { s with
      q := q', rspValid := true, rspData := if s.q.getLsbD (s.cfg.n - 1) then 1 else 0, rspErr := 0b00#2 } ∧
    (∀ i, i + 1 < s.cfg.n → q'.getLsbD (i + 1) = s.q.getLsbD i) ∧ q'.getLsbD 0 = tapXor s.cfg s.q

/-- R151, R152, R155: the inverted step. The negated feedback enters at 0 and is the output. -/
def Obligations.StepInverted : Prop :=
  ∀ (a : Bus) (s : State), s.cfg.invert = true → ∃ q' : BitVec s.cfg.n,
    exec (.step a) s = .next { s with
      q := q', rspValid := true, rspData := if q'.getLsbD 0 then 1 else 0, rspErr := 0b00#2 } ∧
    (∀ i, i + 1 < s.cfg.n → q'.getLsbD (i + 1) = s.q.getLsbD i) ∧ q'.getLsbD 0 = !tapXor s.cfg s.q

/-- R121, R155: STEP, opcode 0x1, which drives the register with one SHIFT, performs the single step of the
pseudocode and returns its output bit; STEPN 1 has the same effect. -/
def Obligations.StepIsStepC : Prop :=
  ∀ (a : Bus) (s : State), decode (a ++ 0x1#4) = .step a ∧ exec (.stepn 1) s = exec (.step a) s ∧
    exec (.step a) s = .next { s with
      q := (stepC s.cfg s.q).1, rspValid := true, rspData := if (stepC s.cfg s.q).2 then 1 else 0, rspErr := 0b00#2 }

/-- R124: under a plain variant the zero state is absorbing: any number of steps from it leaves it and gives 0s. -/
def Obligations.PlainZeroIsAbsorbing : Prop :=
  ∀ (c : Configuration) (k : Nat), c.invert = false →
    stepC c (0#c.n) = (0#c.n, false) ∧ stateAfterSteps c k (0#c.n) = 0#c.n ∧ outputOfStep c k (0#c.n) = false

/-- R156, R157: the inverted step takes 0 to 1 with output 1, and for N = 1 it complements the state. -/
def Obligations.InvertedStepLeavesZero : Prop :=
  ∀ c : Configuration, c.invert = true →
    stepC c (0#c.n) = (1#c.n, true) ∧
    (c.n = 1 → ∀ s : BitVec c.n, (stepC c s).1 = ~~~s ∧ (stepC c s).2 = (~~~s).getLsbD 0)

/-- R159: in the inverted variant the all-ones state is a fixed point with output 1 for an even number of taps, and
goes to 2^N - 2 with output 0 for an odd number. -/
def Obligations.InvertedAllOnes : Prop :=
  ∀ c : Configuration, c.invert = true →
    (c.taps.length % 2 = 0 → stepC c (BitVec.allOnes c.n) = (BitVec.allOnes c.n, true)) ∧
    (c.taps.length % 2 = 1 → (stepC c (BitVec.allOnes c.n)).1.toNat = 2 ^ c.n - 2 ∧
      (stepC c (BitVec.allOnes c.n)).2 = false)

/-- R160: with N among the taps the single step is a bijection on N-bit states, in every variant. -/
def Obligations.StepIsBijectiveWithTapN : Prop :=
  ∀ c : Configuration, c.n ∈ c.taps → Function.Bijective (fun s : BitVec c.n => (stepC c s).1)

/-- R109: with N not among the taps the single step maps exactly two states to each reachable successor. -/
def Obligations.StepIsTwoToOneWithoutTapN : Prop :=
  ∀ c : Configuration, c.n ∉ c.taps → ∀ s : BitVec c.n, ∃ s' : BitVec c.n, s' ≠ s ∧
    ∀ x : BitVec c.n, (stepC c x).1 = (stepC c s).1 ↔ x = s ∨ x = s'

/-- R161: with an even number of taps the inverted sequence from ~x is the complement of the plain LEFT sequence from
x. -/
def Obligations.InvertedIsComplementOfPlain : Prop :=
  ∀ c : Configuration, c.invert = true → c.taps.length % 2 = 0 → ∀ (k : Nat) (s : BitVec c.n),
    stateAfterSteps c k (~~~s) = ~~~(stateAfterSteps (plain c) k s)

/-- R123: the closed forms of the 16-bit and the 32-bit RIGHT register with taps 16, 14, 13, 11. -/
def Obligations.ReferenceRecurrences : Prop :=
  ∀ c : Configuration, c.dir = Config.Dir.right → c.taps = [16, 14, 13, 11] → ∀ s : BitVec c.n,
    (c.n = 16 → (stepC c s).1.toNat = ((s.toNat >>> 1) |||
      (((s.toNat >>> 0) ^^^ (s.toNat >>> 2) ^^^ (s.toNat >>> 3) ^^^ (s.toNat >>> 5)) <<< 15)) % 2 ^ 16) ∧
    (c.n = 32 → (stepC c s).1.toNat = ((s.toNat >>> 1) |||
      (((s.toNat >>> 16) ^^^ (s.toNat >>> 18) ^^^ (s.toNat >>> 19) ^^^ (s.toNat >>> 21)) <<< 31)) % 2 ^ 32)

/-- R158: N = 8, LEFT, inverted, taps 8 and 5: the state cycles from 0, 6 and 26 have lengths 217, 31 and 7. -/
def Obligations.ReferenceCycleLengths : Prop :=
  ∀ c : Configuration, c.dir = Config.Dir.left → c.invert = true → c.taps = [8, 5] → c.n = 8 →
    ∀ p ∈ [(0, 217), (6, 31), (26, 7)], ∀ k, 1 ≤ k → k ≤ p.2 →
      (stateAfterSteps c k (BitVec.ofNat c.n p.1) = BitVec.ofNat c.n p.1 ↔ k = p.2)

/-! ## Bulk stepping -/

/-- R128, R125, R130: STEPN n with n at most 128 performs n single steps and packs their outputs LSB-first, zeros from
bit n on. -/
def Obligations.StepnPacksOutputs : Prop :=
  ∀ (count : Bus) (s : State), count.toNat ≤ 128 → ∃ data : Bus,
    exec (.stepn count) s = .next { s with
      q := stateAfterSteps s.cfg count.toNat s.q, rspValid := true, rspData := data, rspErr := 0b00#2 } ∧
    ∀ i, data.getLsbD i = (decide (i < count.toNat) && outputOfStep s.cfg i s.q)

/-- R129: STEPN 0 leaves STATE unchanged and responds (0, OK). -/
def Obligations.StepnZero : Prop :=
  ∀ s : State, exec (.stepn 0) s = .next { s with rspValid := true, rspData := 0, rspErr := 0b00#2 }

/-- R131: under the plain RIGHT variant STEPN N returns STATE, under the plain LEFT variant STATE bit-reversed. -/
def Obligations.StepnOfWidthReadsState : Prop :=
  ∀ s t : State, s.cfg.invert = false → exec (.stepn (BitVec.ofNat 128 s.cfg.n)) s = .next t →
    (s.cfg.dir = Config.Dir.right → t.rspData.toNat = s.q.toNat) ∧
    (s.cfg.dir = Config.Dir.left → ∀ i, t.rspData.getLsbD i =
      (decide (i < s.cfg.n) && s.q.getLsbD (s.cfg.n - 1 - i)))

/-- R132: STEPN n reaches the state of n STEP commands, and its data is their outputs packed. -/
def Obligations.StepnEqualsSteps : Prop :=
  ∀ (count a : Bus) (s : State), count.toNat ≤ 128 → ∃ rs u t,
    perform (List.replicate count.toNat (.step a)) s = some (rs, u) ∧ exec (.stepn count) s = .next t ∧
    rs.length = count.toNat ∧ u.cfg = t.cfg ∧ u.q.toNat = t.q.toNat ∧
    ∀ i (h : i < rs.length), rs[i].err = 0b00#2 ∧ rs[i].data = if t.rspData.getLsbD i then 1 else 0

/-- R132: STEPN a and then STEPN b reach the state of STEPN (a + b), and the second result is bits a+b-1 to a of
its. -/
def Obligations.StepnComposes : Prop :=
  ∀ (a b : Nat) (s : State), a + b ≤ 128 → ∃ t u v,
    exec (.stepn (BitVec.ofNat 128 a)) s = .next t ∧ exec (.stepn (BitVec.ofNat 128 b)) t = .next u ∧
    exec (.stepn (BitVec.ofNat 128 (a + b))) s = .next v ∧ u.cfg = v.cfg ∧ u.q.toNat = v.q.toNat ∧
    ∀ i, i < b → u.rspData.getLsbD i = v.rspData.getLsbD (a + i)

/-- R134, R135, R136: NEXT16, NEXT32 and NEXT64, opcodes 0x3 to 0x5, are STEPN 16, 32 and 64 in every variant: that
many single steps, their outputs packed LSB-first, zeros above. -/
def Obligations.NextIsStepn : Prop :=
  ∀ (a : Bus) (s : State),
    decode (a ++ 0x3#4) = .next16 a ∧ decode (a ++ 0x4#4) = .next32 a ∧ decode (a ++ 0x5#4) = .next64 a ∧ ∀ p ∈ [(Instr.next16 a, 16), (Instr.next32 a, 32), (Instr.next64 a, 64)],
    exec p.1 s = exec (.stepn (BitVec.ofNat 128 p.2)) s ∧ ∃ data : Bus,
    exec p.1 s = .next { s with
      q := stateAfterSteps s.cfg p.2 s.q, rspValid := true, rspData := data, rspErr := 0b00#2 } ∧
    ∀ i, data.getLsbD i = (decide (i < p.2) && outputOfStep s.cfg i s.q)

/-- R64: the commands of ADVANCE k advance STATE by k single steps, for k of any size. -/
def Obligations.AdvancePerformsKSteps : Prop :=
  ∀ (k : Nat) (s : State), ∃ rs t, perform (advanceCommands k) s = some (rs, t) ∧ t.cfg = s.cfg ∧
    t.q.toNat = (stateAfterSteps s.cfg k s.q).toNat ∧ ∀ r ∈ rs, r.err = 0b00#2

/-! ## All commands -/

/-- R56, R60, R61, R116, R169: every command completes, changing only STATE and the response; the code is that of the
one error that applies, 0b11 never; an error response carries no data and leaves STATE. -/
def Obligations.EveryCommandCompletes : Prop :=
  ∀ (i : Instr) (s : State), ∃ (q' : BitVec s.cfg.n) (data : Bus) (err : ErrBits),
    exec i s = .next { s with q := q', rspValid := true, rspData := data, rspErr := err } ∧
    (err = 0b01#2 ↔ ∃ op a, i = .reserved op a) ∧ (err = 0b10#2 ↔ ∃ n, i = .stepn n ∧ 128 < n.toNat) ∧
    err ≠ 0b11#2 ∧ (err ≠ 0b00#2 → data = 0 ∧ q' = s.q)

/-- R33: responses and STATE after a command sequence depend on nothing but the configuration, STATE and the
commands. -/
def Obligations.ResultsDependOnStateAndCommandsOnly : Prop :=
  ∀ (is : List Instr) (s s' : State), s.cfg = s'.cfg → s.q.toNat = s'.q.toNat → ∃ rs t t',
    perform is s = some (rs, t) ∧ perform is s' = some (rs, t') ∧ t.cfg = t'.cfg ∧ t.q.toNat = t'.q.toNat

/-- D31, X1, X2: the fault a model records after a command is that of its response; the command still completes, which
is the model's choice (notes/assumptions/4.md). -/
def Obligations.ErrorResponsesAreRecorded : Prop :=
  ∀ (i : Instr) (s : State), ∃ t, exec i s = .next t ∧
    (recordedFault t = some .illegalOp ↔ ∃ op a, i = .reserved op a) ∧
    (recordedFault t = some .countRange ↔ ∃ n, i = .stepn n ∧ 128 < n.toNat) ∧
    recordedFault t ≠ some .errCodeNeverProduced ∧ recordedFault t ≠ some .reservedCtrl

/-! ## The clock edge -/

/-- R197, R198: a step runs the decoded command: an accepting edge is exec of the command on the pins, then the wait of
its latency (`launch`) and the bookkeeping of every edge (`tick`); and a well-formed command that the host presents to a
ready block is accepted. That STATE is written at the accepting edge, and the host's actions, are the model's choice
(notes/assumptions/3.md, 9.md). -/
def Obligations.StepRunsDecodedCommand : Prop :=
  (∀ s t : State, s.accepts = true → exec (decode s.word) s = .next t →
    step s = .next (tick s false (launch (decode s.word) t))) ∧
  ∀ (i : Instr) (s : State), WellFormed i = true →
    (present s (encode i)).accepts = true ∧ decode (present s (encode i)).word = i

/-- R190, R191: at an edge with rst = 1 STATE becomes RESET_SEED mod 2^N, nothing is in flight, there is no response and
the block is not ready, whatever the state was. -/
def Obligations.ResetEdge : Prop :=
  ∀ s : State, s.pins.rst = true → ∃ t, step s = .next t ∧ t.cfg = s.cfg ∧ t.q.toNat = s.cfg.resetSeed % 2 ^ s.cfg.n ∧
    t.seq = none ∧ t.busy = false ∧ t.rspValid = false ∧ t.cmdReady = false

/-- R34: what the state right after reset holds, for every configuration; State.reset is that of the one configuration
nothing constrains, the model's choice (notes/assumptions/1.md). -/
def Obligations.ResetState : Prop :=
  ∀ c : Configuration, (State.resetOf c).cfg = c ∧ (State.resetOf c).q.toNat = c.resetSeed % 2 ^ c.n ∧
    (State.resetOf c).rspValid = false ∧ (State.resetOf c).busy = false ∧ (State.resetOf c).cmdReady = false ∧
    (State.resetOf c).seq = none ∧ State.reset = State.resetOf Config.cfg

/-- R195: after an edge with rst = 1 the block is not ready; the first edge with rst = 0 accepts nothing, even with
cmd_valid = 1, and makes it ready. -/
def Obligations.FirstEdgeAfterResetMakesReady : Prop :=
  ∀ s : State, s.rstSeen = true → s.seq = none → s.pins.rst = false →
    s.cmdReady = false ∧ s.accepts = false ∧ ∃ t, step s = .next t ∧ t.cmdReady = true ∧
    t.busy = false ∧ t.rspValid = false ∧ t.cfg = s.cfg ∧ t.q.toNat = s.q.toNat

/-- R80, R64: an edge with rst = 0 and cmd_valid = 0 on an idle block holds STATE and gives no response. -/
def Obligations.IdleEdgeHoldsState : Prop :=
  ∀ s : State, s.seq = none → s.pins.rst = false → s.pins.cmdValid = false → ∃ t, step s = .next t ∧
    t.cfg = s.cfg ∧ t.q.toNat = s.q.toNat ∧ t.rspValid = false ∧ t.seq = none ∧ t.cmdReady = true

/-- R197: while cmd_ready = 0 the command pins have no effect and leave no record: any two settings of them give the
same next state. -/
def Obligations.NotReadyIgnoresCommandPins : Prop :=
  ∀ (s : State) (rest : List HostAction) (p p' : Pins), s.cmdReady = false → p.rst = p'.rst →
    step { s with host := .drive p :: rest } = step { s with host := .drive p' :: rest }

/-- R198, R199, R45: a command accepted at an edge, with LAT = L and no reset: in the L - 1 cycles before its response
cycle busy = 1, cmd_ready = 0 and there is no response; its response cycle has busy = 0, cmd_ready = 1, the response and
the state of the command's rule. -/
def Obligations.ResponseComesAfterLatency : Prop :=
  ∀ s t : State, s.accepts = true → ResetFree s.host → exec (decode s.word) s = .next t →
    (∀ j, 1 ≤ j → j < latency s.cfg s.pins.cmdOp s.pins.cmdArg → ∃ u, runEdges j s = some ([], u) ∧
      u.busy = true ∧ u.cmdReady = false ∧ u.rspValid = false) ∧
    ∃ u, runEdges (latency s.cfg s.pins.cmdOp s.pins.cmdArg) s = some ([⟨t.rspData, t.rspErr⟩], u) ∧
      u.busy = false ∧ u.cmdReady = true ∧ u.rspValid = true ∧ u.rspData = t.rspData ∧ u.rspErr = t.rspErr ∧
      u.cfg = t.cfg ∧ u.q.toNat = t.q.toNat

/-- R205: every accepted command gets its response within LAT_MAX edges, a bound of the configuration alone, as long
as rst stays 0. -/
def Obligations.BoundedCompletion : Prop :=
  ∀ s : State, s.accepts = true → ResetFree s.host → ∃ k r u, 1 ≤ k ∧ k ≤ latencyMax s.cfg ∧
    runEdges k s = some ([r], u) ∧ u.rspValid = true

/-- R27, R192, R200: a response cycle follows only a pending command's last edge or an accepting edge with LAT = 1, never
an edge with rst = 1; so a command abandoned by a reset never responds. How a command in flight is held (its edges to go
and its response, State.seq) is the model's choice (notes/assumptions/14.md). -/
def Obligations.ResponsesComeOnlyFromCommands : Prop :=
  ∀ s t : State, step s = .next t → t.rspValid = true → s.pins.rst = false ∧
    ((∃ f, s.seq = some f ∧ f.left ≤ 1 ∧ responseOf t = some f.rsp) ∨
      (s.seq = none ∧ s.accepts = true ∧ latency s.cfg s.pins.cmdOp s.pins.cmdArg = 1))

/-- R25, R26, R28, R29, R44: the ports of an idle or response cycle: cmd_ready is 1 unless rst was 1 at the edge, and
state_q and value_q show STATE bit for bit, with zeros above N. -/
def Obligations.PortsShowState : Prop :=
  ∀ s : State, s.busy = false → s.cmdReady = !s.rstSeen ∧
    (∀ i, s.stateQ.getLsbD i = s.q.getLsbD i ∧ s.valueQ.getLsbD i = s.q.getLsbD i) ∧
    (∀ i, s.cfg.n ≤ i → s.valueQ.getLsbD i = false) ∧ s.valueQ.toNat < 2 ^ s.cfg.n

/-- R24: no edge changes the configuration. -/
def Obligations.ConfigurationNeverChanges : Prop := ∀ s t : State, step s = .next t → t.cfg = s.cfg

/-- R20, R80: at an edge STATE changes only by reset or by accepting LOAD or a stepping command without an error. -/
def Obligations.StateChangesOnlyByWritersAndReset : Prop :=
  ∀ s t : State, step s = .next t → t.q.toNat ≠ s.q.toNat →
    s.pins.rst = true ∨ (s.accepts = true ∧ writesState (decode s.word) = true ∧ errOf (decode s.word) = 0b00#2)

/-- R205, R56: no edge stops the machine. -/
def Obligations.EveryEdgeCompletes : Prop := ∀ s : State, ∃ t, step s = .next t

/-- The invariant of `Safety.Inv` holds right after reset, for every configuration. -/
def Obligations.InvHoldsAfterReset : Prop := ∀ c : Configuration, Inv (State.resetOf c)

/-- R199, R61, R190, R198, R169, R45: every edge keeps the invariant of the response registers, the sequencer and the
reset value; among its clauses, the response that a command in flight holds is the one its rule gives. How a command in
flight is held, and that STATE already has its effect, are the model's choice (notes/assumptions/14.md, 3.md). -/
def Obligations.InvIsKeptByEveryEdge : Prop := ∀ s t : State, Inv s → step s = .next t → Inv t

/-- R45, R47, R209 (the host's actions are the model's, notes/assumptions/9.md): the clocked block refines the command
level. For every sequence of command words that the host issues to a ready block, the edges of their latencies show
exactly the responses of the commands performed atomically one after the other, in order, and leave their STATE,
whatever LAT is. -/
def Obligations.ClockedRunRefinesCommandSequence : Prop :=
  ∀ (is : List Instr) (s : State), (∀ i ∈ is, WellFormed i = true) → s.cmdReady = true →
    s.host = is.map issueOf → ∃ rs t u,
      perform is s = some (rs, t) ∧ runEdges (totalLatency s.cfg is) s = some (rs, u) ∧ rs.length = is.length ∧
      u.cfg = t.cfg ∧ u.q.toNat = t.q.toNat ∧ u.cmdReady = true ∧ u.host = []

/-- R195, R209: the same from the state right after reset, one edge later. -/
def Obligations.CommandSequenceRunsFromReset : Prop :=
  ∀ (is : List Instr) (c : Configuration), (∀ i ∈ is, WellFormed i = true) → ∃ rs t u,
    perform is (State.resetOf c) = some (rs, t) ∧
    runEdges (1 + totalLatency c is) { State.resetOf c with host := is.map issueOf } = some (rs, u) ∧
    rs.length = is.length ∧ u.cfg = c ∧ t.cfg = c ∧ u.q.toNat = t.q.toNat
end

