-- ==== Sys2Proof/Laws/State.lean ====
section
/-! SUPPORT. Laws/State.lean: one lemma per field of State for each named update, true by rfl. -/

namespace Sys2Proof.Machine

section respond
@[simp] theorem respond_cfg (data : Bus) (err : ErrBits) (s : State) : (respond data err s).cfg = s.cfg := rfl
@[simp] theorem respond_q (data : Bus) (err : ErrBits) (s : State) : (respond data err s).q = s.q := rfl
@[simp] theorem respond_rspValid (data : Bus) (err : ErrBits) (s : State) : (respond data err s).rspValid = true := rfl
@[simp] theorem respond_rspData (data : Bus) (err : ErrBits) (s : State) : (respond data err s).rspData = data := rfl
@[simp] theorem respond_rspErr (data : Bus) (err : ErrBits) (s : State) : (respond data err s).rspErr = err := rfl
@[simp] theorem respond_rstSeen (data : Bus) (err : ErrBits) (s : State) : (respond data err s).rstSeen = s.rstSeen := rfl
@[simp] theorem respond_seq (data : Bus) (err : ErrBits) (s : State) : (respond data err s).seq = s.seq := rfl
@[simp] theorem respond_host (data : Bus) (err : ErrBits) (s : State) : (respond data err s).host = s.host := rfl
@[simp] theorem respond_draws (data : Bus) (err : ErrBits) (s : State) : (respond data err s).draws = s.draws := rfl
end respond

section silent
@[simp] theorem silent_cfg (s : State) : (silent s).cfg = s.cfg := rfl
@[simp] theorem silent_q (s : State) : (silent s).q = s.q := rfl
@[simp] theorem silent_rspValid (s : State) : (silent s).rspValid = false := rfl
@[simp] theorem silent_rspData (s : State) : (silent s).rspData = Config.freeRspData s.draws := rfl
@[simp] theorem silent_rspErr (s : State) : (silent s).rspErr = Config.freeRspErr s.draws := rfl
@[simp] theorem silent_rstSeen (s : State) : (silent s).rstSeen = s.rstSeen := rfl
@[simp] theorem silent_seq (s : State) : (silent s).seq = s.seq := rfl
@[simp] theorem silent_host (s : State) : (silent s).host = s.host := rfl
@[simp] theorem silent_draws (s : State) : (silent s).draws = s.draws := rfl
end silent

section tick
@[simp] theorem tick_cfg (b : State) (rst : Bool) (s : State) : (tick b rst s).cfg = s.cfg := rfl
@[simp] theorem tick_q (b : State) (rst : Bool) (s : State) : (tick b rst s).q = s.q := rfl
@[simp] theorem tick_rspValid (b : State) (rst : Bool) (s : State) : (tick b rst s).rspValid = s.rspValid := rfl
@[simp] theorem tick_rspData (b : State) (rst : Bool) (s : State) : (tick b rst s).rspData = s.rspData := rfl
@[simp] theorem tick_rspErr (b : State) (rst : Bool) (s : State) : (tick b rst s).rspErr = s.rspErr := rfl
@[simp] theorem tick_rstSeen (b : State) (rst : Bool) (s : State) : (tick b rst s).rstSeen = rst := rfl
@[simp] theorem tick_seq (b : State) (rst : Bool) (s : State) : (tick b rst s).seq = s.seq := rfl
@[simp] theorem tick_host (b : State) (rst : Bool) (s : State) : (tick b rst s).host = b.hostAfter := rfl
@[simp] theorem tick_draws (b : State) (rst : Bool) (s : State) : (tick b rst s).draws = b.draws + 1 := rfl
end tick

section present
@[simp] theorem present_cfg (s : State) (w : CmdWord) : (present s w).cfg = s.cfg := rfl
@[simp] theorem present_q (s : State) (w : CmdWord) : (present s w).q = s.q := rfl
@[simp] theorem present_rspValid (s : State) (w : CmdWord) : (present s w).rspValid = s.rspValid := rfl
@[simp] theorem present_rspData (s : State) (w : CmdWord) : (present s w).rspData = s.rspData := rfl
@[simp] theorem present_rspErr (s : State) (w : CmdWord) : (present s w).rspErr = s.rspErr := rfl
@[simp] theorem present_rstSeen (s : State) (w : CmdWord) : (present s w).rstSeen = false := rfl
@[simp] theorem present_seq (s : State) (w : CmdWord) : (present s w).seq = none := rfl
@[simp] theorem present_host (s : State) (w : CmdWord) : (present s w).host = .drive ⟨false, true, opField w, argField w⟩ :: s.host := rfl
@[simp] theorem present_draws (s : State) (w : CmdWord) : (present s w).draws = s.draws := rfl
end present

section resetOf
@[simp] theorem State.resetOf_cfg (c : Configuration) : (State.resetOf c).cfg = c := rfl
@[simp] theorem State.resetOf_q (c : Configuration) : (State.resetOf c).q = resetValue c := rfl
@[simp] theorem State.resetOf_rspValid (c : Configuration) : (State.resetOf c).rspValid = false := rfl
@[simp] theorem State.resetOf_rspData (c : Configuration) : (State.resetOf c).rspData = 0 := rfl
@[simp] theorem State.resetOf_rspErr (c : Configuration) : (State.resetOf c).rspErr = 0 := rfl
@[simp] theorem State.resetOf_rstSeen (c : Configuration) : (State.resetOf c).rstSeen = true := rfl
@[simp] theorem State.resetOf_seq (c : Configuration) : (State.resetOf c).seq = none := rfl
@[simp] theorem State.resetOf_host (c : Configuration) : (State.resetOf c).host = [] := rfl
@[simp] theorem State.resetOf_draws (c : Configuration) : (State.resetOf c).draws = 0 := rfl
end resetOf

/-- Two states are equal when their fields are; the registers are compared as numbers. -/
theorem State.ext_toNat {s t : State} (hc : s.cfg = t.cfg) (hq : s.q.toNat = t.q.toNat)
    (hv : s.rspValid = t.rspValid) (hd : s.rspData = t.rspData) (he : s.rspErr = t.rspErr)
    (hr : s.rstSeen = t.rstSeen) (hs : s.seq = t.seq) (hh : s.host = t.host) (hn : s.draws = t.draws) : s = t := by
  obtain ⟨c, q, _, _, _, _, _, _, _⟩ := s
  obtain ⟨c', q', _, _, _, _, _, _, _⟩ := t
  subst hc hv hd he hr hs hh hn
  obtain rfl : q = q' := BitVec.eq_of_toNat_eq hq
  rfl

end Sys2Proof.Machine
end

