-- ==== Sys2Proof/Laws/Ops.lean ====
section
/-! SUPPORT. Laws/Ops.lean: what the shared operations of Machine/Ops.lean can do. -/

namespace Sys2Proof.Machine

theorem one_le_n (c : Configuration) : 1 ≤ c.n := c.property.1

theorem n_le_128 (c : Configuration) : c.n ≤ 128 := c.property.2.1

/-- An inverted instance shifts left (R11). -/
theorem dir_of_invert {c : Configuration} (h : c.invert = true) : c.dir = .left := by
  rcases c.property.2.2.2.2.2 with h' | h'
  · rw [Configuration.invert, h'] at h; cases h
  · exact h'

@[simp] theorem stateRegisterEdge_hold (c : Configuration) (d : BitVec c.n) (sin : Bool) (q : BitVec c.n) :
    stateRegisterEdge c false ctrlHold d sin q = .next q := rfl

@[simp] theorem stateRegisterEdge_load (c : Configuration) (d : BitVec c.n) (sin : Bool) (q : BitVec c.n) :
    stateRegisterEdge c false ctrlLoad d sin q = .next d := rfl

@[simp] theorem stateRegisterEdge_shift (c : Configuration) (d : BitVec c.n) (sin : Bool) (q : BitVec c.n) :
    stateRegisterEdge c false ctrlShift d sin q = .next (shiftRegister c sin q) := rfl

@[simp] theorem stateRegisterEdge_reset (c : Configuration) (ctrl : BitVec 2) (d : BitVec c.n) (sin : Bool)
    (q : BitVec c.n) : stateRegisterEdge c true ctrl d sin q = .next (resetValue c) := rfl

theorem command_hold (s : State) (d : BitVec s.cfg.n) (sin : Bool) (data : Bus) (err : ErrBits) :
    command s ctrlHold d sin data err = .next (respond data err s) := rfl

theorem command_load (s : State) (d : BitVec s.cfg.n) (sin : Bool) (data : Bus) (err : ErrBits) :
    command s ctrlLoad d sin data err = .next (respond data err { s with q := d }) := rfl

theorem command_shift (s : State) (d : BitVec s.cfg.n) (sin : Bool) (data : Bus) (err : ErrBits) :
    command s ctrlShift d sin data err = .next (respond data err { s with q := shiftRegister s.cfg sin s.q }) := rfl

theorem raiseError_eq (code : ErrBits) (s : State) : raiseError code s = .next (respond 0 code s) := rfl

@[simp] theorem zextBit_toNat (w : Nat) (h : 1 ≤ w) (b : Bool) : (zextBit w b).toNat = b.toNat := by
  have : 2 ≤ 2 ^ w := by simpa using Nat.pow_le_pow_right (n := 2) (by decide) h
  cases b <;> simp [zextBit]; omega

@[simp] theorem zextBit_getLsbD (w : Nat) (b : Bool) (i : Nat) :
    (zextBit w b).getLsbD i = (decide (i < w) && (decide (i = 0) && b)) := by
  rw [zextBit, BitVec.getLsbD_setWidth, BitVec.getLsbD_ofBool]

@[simp] theorem zextBus_getLsbD {n : Nat} (h : n ≤ 128) (v : BitVec n) (i : Nat) :
    (zextBus v).getLsbD i = v.getLsbD i := by
  rw [zextBus, BitVec.getLsbD_setWidth]
  by_cases hi : i < 128
  · simp [hi]
  · simp [hi, BitVec.getLsbD_of_ge v i (by omega)]

@[simp] theorem zextBus_toNat {n : Nat} (h : n ≤ 128) (v : BitVec n) : (zextBus v).toNat = v.toNat := by
  rw [zextBus, BitVec.toNat_setWidth, Nat.mod_eq_of_lt]
  exact Nat.lt_of_lt_of_le v.isLt (Nat.pow_le_pow_right (by decide) h)

theorem narrow_getLsbD (w : Nat) (h : w ≤ 128) (r : Bus) (i : Nat) :
    (narrow w r).getLsbD i = (decide (i < w) && r.getLsbD i) := by
  rw [narrow, zextBus_getLsbD h, BitVec.getLsbD_setWidth]

theorem packBit_getLsbD (r : Bus) (i : Nat) (o : Bool) (j : Nat) :
    (packBit r i o).getLsbD j = (r.getLsbD j || (decide (j < 128) && decide (j = i) && o)) := by
  rw [packBit, BitVec.getLsbD_or, BitVec.getLsbD_shiftLeft, zextBit_getLsbD]
  by_cases h : j = i <;> by_cases h' : j < i <;> by_cases h'' : j < 128 <;> simp_all; omega

/-- STATE after SHIFT, bit by bit, in the direction RIGHT (R83). -/
theorem shiftRegister_right {c : Configuration} (h : c.dir = .right) (sin : Bool) (q : BitVec c.n) (i : Nat) :
    (shiftRegister c sin q).getLsbD i = if i + 1 = c.n then sin else q.getLsbD (i + 1) := by
  have h1 := one_le_n c
  simp only [shiftRegister, h, BitVec.getLsbD_or, BitVec.getLsbD_ushiftRight, BitVec.getLsbD_shiftLeft,
    zextBit_getLsbD]
  by_cases hi : i + 1 = c.n
  · rw [if_pos hi, BitVec.getLsbD_of_ge q (1 + i) (by omega)]
    have : i = c.n - 1 := by omega
    simp [this]
    omega
  · rw [if_neg hi, Nat.add_comm 1 i]
    by_cases hl : i < c.n - 1
    · simp [hl]
    · have : ¬ i < c.n := by omega
      simp [this]

/-- STATE after SHIFT, bit by bit, in the direction LEFT (R83). -/
theorem shiftRegister_left {c : Configuration} (h : c.dir = .left) (sin : Bool) (q : BitVec c.n) (i : Nat) :
    (shiftRegister c sin q).getLsbD i = if i = 0 then sin else (decide (i < c.n) && q.getLsbD (i - 1)) := by
  have h1 := one_le_n c
  simp only [shiftRegister, h, BitVec.getLsbD_or, BitVec.getLsbD_shiftLeft, zextBit_getLsbD]
  rcases Nat.eq_zero_or_pos i with rfl | hi
  · simp; omega
  · have : i ≠ 0 := by omega
    simp [this]

/-- STEPN with a legal count (R128). -/
theorem execStepn_inRange {count : Bus} (h : count.toNat ≤ 128) (s : State) :
    execStepn count s =
      .next (respond (bulk s.cfg count.toNat s.q).2 errOk { s with q := (bulk s.cfg count.toNat s.q).1 }) := by
  rw [execStepn, countOperand, if_neg (by omega), command_load]

/-- STEPN with a count above 128 (R167). -/
theorem execStepn_outOfRange {count : Bus} (h : 128 < count.toNat) (s : State) :
    execStepn count s = .next (respond 0 errCountRange s) := by
  rw [execStepn, countOperand, if_pos h, raiseError_eq]

/-- Everything a command can do: a next state in which only STATE and the response differ, with the error code that
applies (R60, R87, R168, R169). -/
theorem exec_answers (i : Instr) (s : State) :
    ∃ q' data, exec i s = .next (respond data (errOf i) { s with q := q' }) ∧ (errOf i ≠ errOk → data = 0) := by
  cases i with
  | load seed => exact ⟨_, _, rfl, fun _ => rfl⟩
  | step _ => exact ⟨_, _, rfl, fun h => absurd rfl h⟩
  | stepn count =>
    by_cases h : 128 < count.toNat
    · have he : errOf (.stepn count) = errCountRange := if_pos h
      exact ⟨s.q, 0, he ▸ execStepn_outOfRange h s, fun _ => rfl⟩
    · have he : errOf (.stepn count) = errOk := if_neg h
      exact ⟨_, _, he ▸ execStepn_inRange (by omega) s, fun h' => absurd he h'⟩
  | next16 _ => exact ⟨_, _, rfl, fun h => absurd rfl h⟩
  | next32 _ => exact ⟨_, _, rfl, fun h => absurd rfl h⟩
  | next64 _ => exact ⟨_, _, rfl, fun h => absurd rfl h⟩
  | value _ => exact ⟨s.q, _, rfl, fun h => absurd rfl h⟩
  | state _ => exact ⟨s.q, _, rfl, fun h => absurd rfl h⟩
  | reserved _ _ => exact ⟨s.q, 0, rfl, fun _ => rfl⟩

end Sys2Proof.Machine
end

