-- ==== Sys2Proof/Laws/Cycle.lean ====
section
/-! SUPPORT. Laws/Cycle.lean: what one edge can do, case by case (spec/70_reset_and_hazards.md), and the fields of the
word a command is encoded in. -/

namespace Sys2Proof.Machine

/-- The bits of a command word (R54). -/
theorem cmdWord_getLsbD (op : Opcode) (arg : Bus) (k : Nat) :
    (cmdWord op arg).getLsbD k = if k < 4 then op.getLsbD k else arg.getLsbD (k - 4) :=
  BitVec.getLsbD_append (x := arg) (y := op)

@[simp] theorem opField_cmdWord (op : Opcode) (arg : Bus) : opField (cmdWord op arg) = op := by
  apply BitVec.eq_of_getLsbD_eq
  intro i hi
  simp [opField, cmdWord_getLsbD, hi]

@[simp] theorem argField_cmdWord (op : Opcode) (arg : Bus) : argField (cmdWord op arg) = arg := by
  apply BitVec.eq_of_getLsbD_eq
  intro i hi
  simp [argField, cmdWord_getLsbD, hi]

/-- A word is put together from its fields (R54). -/
theorem cmdWord_fields (w : CmdWord) : cmdWord (opField w) (argField w) = w := by
  apply BitVec.eq_of_getLsbD_eq
  intro i hi
  rw [cmdWord_getLsbD]
  by_cases h : i < 4
  · simp [h, opField]
  · have : i - 4 < 128 := by omega
    have : 4 + (i - 4) = i := by omega
    simp [argField, *]

theorem decode_cmdWord (op : Opcode) (arg : Bus) : decode (cmdWord op arg) = decodeFields op arg := by
  rw [decode, opField_cmdWord, argField_cmdWord]

theorem cmdReady_iff (s : State) : s.cmdReady = true ↔ s.seq = none ∧ s.rstSeen = false := by
  simp [State.cmdReady, State.busy]

theorem accepts_iff (s : State) :
    s.accepts = true ↔ s.pins.cmdValid = true ∧ s.pins.rst = false ∧ s.seq = none ∧ s.rstSeen = false := by
  simp only [State.accepts, Bool.and_eq_true, cmdReady_iff, Bool.not_eq_true']
  tauto

theorem step_reset {s : State} (h : s.pins.rst = true) :
    step s = .next (tick s true (silent { s with q := resetValue s.cfg, seq := none })) := by
  simp only [step, edge, if_pos h]
  rfl

theorem step_respond {s : State} {f : InFlight} (h : s.pins.rst = false) (hf : s.seq = some f) (hl : f.left ≤ 1) :
    step s = .next (tick s false (respond f.rsp.data f.rsp.err { s with seq := none })) := by
  simp only [step, edge, h, hf, edgeBusy, if_pos hl]
  rfl

theorem step_wait {s : State} {f : InFlight} (h : s.pins.rst = false) (hf : s.seq = some f) (hl : 1 < f.left) :
    step s = .next (tick s false (silent { s with seq := some { f with left := f.left - 1 } })) := by
  have : ¬ f.left ≤ 1 := by omega
  simp only [step, edge, h, hf, edgeBusy, if_neg this]
  rfl

theorem step_idle {s : State} (h : s.pins.rst = false) (hs : s.seq = none) (ha : s.accepts = false) :
    step s = .next (tick s false (silent s)) := by
  simp only [step, edge, h, hs, ha]
  rfl

theorem step_accept {s : State} (ha : s.accepts = true) :
    step s = mapNext (fun t => tick s false (launch (decode s.word) t)) (exec (decode s.word) s) := by
  obtain ⟨-, h, hs, -⟩ := (accepts_iff s).1 ha
  simp only [step, edge, h, hs, ha, edgeAccept]
  rfl

/-- What a step can do: a reset edge, a response, a wait, an idle edge, or the command on the pins. -/
theorem step_cases (s : State) :
    (s.pins.rst = true ∧ step s = .next (tick s true (silent { s with q := resetValue s.cfg, seq := none }))) ∨
    (s.pins.rst = false ∧ ∃ f, s.seq = some f ∧ f.left ≤ 1 ∧
      step s = .next (tick s false (respond f.rsp.data f.rsp.err { s with seq := none }))) ∨
    (s.pins.rst = false ∧ ∃ f, s.seq = some f ∧ 1 < f.left ∧
      step s = .next (tick s false (silent { s with seq := some { f with left := f.left - 1 } }))) ∨
    (s.pins.rst = false ∧ s.seq = none ∧ s.accepts = false ∧ step s = .next (tick s false (silent s))) ∨
    (s.pins.rst = false ∧ s.seq = none ∧ s.accepts = true ∧ ∃ q' data,
      exec (decode s.word) s = .next (respond data (errOf (decode s.word)) { s with q := q' }) ∧
      (errOf (decode s.word) ≠ errOk → data = 0) ∧
      step s = .next (tick s false (launch (decode s.word)
        (respond data (errOf (decode s.word)) { s with q := q' })))) := by
  cases h : s.pins.rst
  · cases hs : s.seq with
    | some f =>
      rcases Nat.lt_or_ge 1 f.left with hl | hl
      · exact .inr (.inr (.inl ⟨rfl, f, rfl, hl, step_wait h hs hl⟩))
      · exact .inr (.inl ⟨rfl, f, rfl, hl, step_respond h hs hl⟩)
    | none =>
      cases ha : s.accepts
      · exact .inr (.inr (.inr (.inl ⟨rfl, rfl, rfl, step_idle h hs ha⟩)))
      · obtain ⟨q', data, he, hd⟩ := exec_answers (decode s.word) s
        refine .inr (.inr (.inr (.inr ⟨rfl, rfl, rfl, q', data, hs ▸ he, hd, ?_⟩)))
        rw [step_accept ha, he]
        simp only [mapNext, hs]
  · exact .inl ⟨rfl, step_reset h⟩

/-- The state after an accepting edge, with LAT = 1 and with more (R198). -/
theorem launch_cases (i : Instr) (t : State) :
    (extraLatency t.cfg i.opcode i.arg = 0 ∧ launch i t = t) ∨
    ∃ e, extraLatency t.cfg i.opcode i.arg = e + 1 ∧
      launch i t = silent { t with seq := some ⟨i, e + 1, ⟨t.rspData, t.rspErr⟩⟩ } := by
  unfold launch
  cases extraLatency t.cfg i.opcode i.arg with
  | zero => exact .inl ⟨rfl, rfl⟩
  | succ e => exact .inr ⟨e, rfl, rfl⟩

@[simp] theorem launch_cfg (i : Instr) (t : State) : (launch i t).cfg = t.cfg := by
  rcases launch_cases i t with ⟨_, h⟩ | ⟨_, _, h⟩
  · rw [h]
  · rw [h]; rfl

@[simp] theorem launch_q_toNat (i : Instr) (t : State) : (launch i t).q.toNat = t.q.toNat := by
  rcases launch_cases i t with ⟨_, h⟩ | ⟨_, _, h⟩
  · rw [h]
  · rw [h]; rfl

end Sys2Proof.Machine

namespace Sys2Proof.Safety

open Sys2Proof.Machine

theorem runEdges_succ {s t : State} (h : Machine.step s = .next t) (k : Nat) :
    runEdges (k + 1) s = (runEdges k t).map (fun p => ((responseOf t).toList ++ p.1, p.2)) := by
  rw [runEdges, h]

/-- A run of a edges and then of b edges. -/
theorem runEdges_add (a b : Nat) (s t u : State) (l m : List Response) (h : runEdges a s = some (l, t))
    (h' : runEdges b t = some (m, u)) : runEdges (a + b) s = some (l ++ m, u) := by
  induction a generalizing s l with
  | zero => cases h; rw [Nat.zero_add]; exact h'
  | succ a ih =>
    rw [Nat.succ_add]
    cases hs : Machine.step s with
    | next x =>
      rw [runEdges_succ hs] at h ⊢
      cases hx : runEdges a x with
      | none => rw [hx] at h; cases h
      | some p =>
        rw [hx] at h
        obtain ⟨rfl, rfl⟩ : (responseOf x).toList ++ p.1 = l ∧ p.2 = t := by simpa using h
        rw [ih x p.1 hx]
        simp
    | fault f => rw [runEdges, hs] at h; cases h
    | refused f => rw [runEdges, hs] at h; cases h

end Sys2Proof.Safety
end

