-- ==== Sys2Proof/Laws/Feedback.lean ====
section
/-! SUPPORT. Laws/Feedback.lean: parity and the tap mask (spec/41_feedback.md). -/

namespace Sys2Proof.Machine

@[simp] theorem parityBelow_zero {n : Nat} (k : Nat) : parityBelow (0#n) k = false := by
  induction k with
  | zero => rfl
  | succ k ih => simp [parityBelow, ih]

theorem parityBelow_xor {n : Nat} (a b : BitVec n) (k : Nat) :
    parityBelow (a ^^^ b) k = xor (parityBelow a k) (parityBelow b k) := by
  induction k with
  | zero => rfl
  | succ k ih =>
    simp only [parityBelow, ih, BitVec.getLsbD_xor]
    cases parityBelow a k <;> cases parityBelow b k <;> cases a.getLsbD k <;> cases b.getLsbD k <;> rfl

/-- Parity depends only on the bits it reads (R103). -/
theorem parityBelow_congr {n m : Nat} {a : BitVec n} {b : BitVec m} (k : Nat)
    (h : ∀ i < k, a.getLsbD i = b.getLsbD i) : parityBelow a k = parityBelow b k := by
  induction k with
  | zero => rfl
  | succ k ih => rw [parityBelow, parityBelow, ih fun i hi => h i (by omega), h k (by omega)]

/-- The parity of s masked to one position is the bit at it. -/
theorem parityBelow_and_twoPow {n : Nat} (s : BitVec n) (j k : Nat) (hj : j < n) :
    parityBelow (s &&& BitVec.twoPow n j) k = (decide (j < k) && s.getLsbD j) := by
  induction k with
  | zero => simp [parityBelow]
  | succ k ih =>
    rw [parityBelow, ih, BitVec.getLsbD_and, BitVec.getLsbD_twoPow]
    by_cases h : j = k
    · subst h; simp [hj]
    · have : j < k + 1 ↔ j < k := by omega
      simp only [this, h, decide_false, Bool.and_false, Bool.xor_false]

theorem idx_lt (c : Configuration) {t : Nat} (h : t ∈ c.taps) : idx c t < c.n := by
  have := c.property.2.2.2.1 t h
  have := one_le_n c
  unfold idx Configuration.n at *
  split <;> omega

/-- Different taps select different bits (R101). -/
theorem idx_inj (c : Configuration) {t u : Nat} (ht : t ∈ c.taps) (hu : u ∈ c.taps) (h : idx c t = idx c u) :
    t = u := by
  have := c.property.2.2.2.1 t ht
  have := c.property.2.2.2.1 u hu
  unfold idx Configuration.n at *
  split at h <;> omega

/-- Bit i of TAPMASK, folded over any list of taps from any mask (R15). -/
theorem maskFold_getLsbD (c : Configuration) (l : List Nat) (m : BitVec c.n) (i : Nat) (hi : i < c.n) :
    (l.foldl (fun m t => m ||| BitVec.twoPow c.n (idx c t)) m).getLsbD i =
      (m.getLsbD i || decide (∃ t ∈ l, i = idx c t)) := by
  induction l generalizing m with
  | nil => simp
  | cons t l ih =>
    rw [List.foldl_cons, ih, BitVec.getLsbD_or, BitVec.getLsbD_twoPow]
    by_cases h : i = idx c t
    · simp [← h, hi]
    · have h' : ¬ idx c t = i := fun e => h e.symm
      simp [h, h']

theorem tapMask_getLsbD (c : Configuration) (i : Nat) (hi : i < c.n) :
    (tapMask c).getLsbD i = decide (∃ t ∈ c.taps, i = idx c t) := by
  rw [tapMask, maskFold_getLsbD c _ _ i hi]
  simp

/-- The parity under the mask of a list of distinct taps is the exclusive-or of their bits (R102). -/
theorem parity_maskFold (c : Configuration) (s : BitVec c.n) (l : List Nat) (hl : ∀ t ∈ l, t ∈ c.taps)
    (hd : l.Nodup) (m : BitVec c.n) (hm : ∀ t ∈ l, m.getLsbD (idx c t) = false) :
    parityBelow (s &&& l.foldl (fun m t => m ||| BitVec.twoPow c.n (idx c t)) m) c.n =
      xor (parityBelow (s &&& m) c.n) (l.foldr (fun t b => xor (s.getLsbD (idx c t)) b) false) := by
  induction l generalizing m with
  | nil => simp
  | cons t l ih =>
    have ht := idx_lt c (hl t (by simp))
    rw [List.foldl_cons, List.foldr_cons, ih (fun u hu => hl u (by simp [hu])) (List.nodup_cons.1 hd).2]
    · have split : s &&& (m ||| BitVec.twoPow c.n (idx c t)) = (s &&& m) ^^^ (s &&& BitVec.twoPow c.n (idx c t)) := by
        ext i hi
        simp only [BitVec.getElem_and, BitVec.getElem_or, BitVec.getElem_xor, BitVec.getElem_twoPow]
        have h0 := hm t (by simp)
        by_cases h : i = idx c t
        · subst h
          rw [BitVec.getLsbD_eq_getElem hi] at h0
          simp [h0]
        · simp [h]
      rw [split, parityBelow_xor, parityBelow_and_twoPow _ _ _ ht]
      simp [ht]
    · intro u hu
      rw [BitVec.getLsbD_or, hm u (by simp [hu]), BitVec.getLsbD_twoPow]
      have : t ≠ u := fun e => (List.nodup_cons.1 hd).1 (e ▸ hu)
      have : idx c t ≠ idx c u := fun e => this (idx_inj c (hl t (by simp)) (hl u (by simp [hu])) e)
      simp [this]

/-- Feedback as the exclusive-or over the taps, the first line of R102. -/
theorem fb_eq_tapFold (c : Configuration) (s : BitVec c.n) :
    fb c s = c.taps.foldr (fun t b => xor (s.getLsbD (idx c t)) b) false := by
  rw [fb, tapMask, parity_maskFold c s c.taps (fun _ h => h) c.property.2.2.2.2.1]
  · simp
  · simp

end Sys2Proof.Machine
end

