-- ==== Sys2Proof/Laws/PerInstr.lean ====
section
/-! SUPPORT. Laws/PerInstr.lean: for each command, where its opcode and its argument stand in its word
(spec/30_encoding.md rule R54). -/

namespace Sys2Proof.Laws.Fields

/-- The opcode is CW[3:0] and the argument CW[131:4], bit for bit (R54). -/
def Statement (i : Instr) : Prop :=
  (∀ k, k < 4 → (encode i).getLsbD k = i.opcode.getLsbD k) ∧
    ∀ k, k < 128 → (encode i).getLsbD (k + 4) = i.arg.getLsbD k

theorem of_cmdWord (i : Instr) : Statement i := by
  constructor <;> intro k hk <;> rw [encode, Machine.cmdWord_getLsbD]
  · rw [if_pos hk]
  · rw [if_neg (by omega), Nat.add_sub_cancel]

theorem load (a : Bus) : Statement (.load a) := of_cmdWord _
theorem step (a : Bus) : Statement (.step a) := of_cmdWord _
theorem stepn (a : Bus) : Statement (.stepn a) := of_cmdWord _
theorem next16 (a : Bus) : Statement (.next16 a) := of_cmdWord _
theorem next32 (a : Bus) : Statement (.next32 a) := of_cmdWord _
theorem next64 (a : Bus) : Statement (.next64 a) := of_cmdWord _
theorem value (a : Bus) : Statement (.value a) := of_cmdWord _
theorem state (a : Bus) : Statement (.state a) := of_cmdWord _
theorem reserved (op : Opcode) (a : Bus) : Statement (.reserved op a) := of_cmdWord _

end Sys2Proof.Laws.Fields
end

