-- ==== Sys2Proof/Laws/Stepping.lean ====
section
/-! SUPPORT. Laws/Stepping.lean: the single step as a shift of state_register, and the loop of bulk stepping in closed
form (spec/42_stepping.md). -/

namespace Sys2Proof.Machine

/-- STATE after k single steps. -/
def stateAfter (c : Configuration) : Nat → BitVec c.n → BitVec c.n
  | 0, s => s
  | k + 1, s => stateAfter c k (stepC c s).1

/-- The output of the step after k single steps. -/
def outputAt (c : Configuration) (k : Nat) (s : BitVec c.n) : Bool := (stepC c (stateAfter c k s)).2

theorem stateAfter_add (c : Configuration) (a b : Nat) (s : BitVec c.n) :
    stateAfter c (a + b) s = stateAfter c b (stateAfter c a s) := by
  induction a generalizing s with
  | zero => rw [Nat.zero_add]; rfl
  | succ a ih => rw [Nat.succ_add]; exact ih _

theorem stateAfter_eq_iterate (c : Configuration) (k : Nat) (s : BitVec c.n) :
    stateAfter c k s = (fun x => (stepC c x).1)^[k] s := by
  induction k generalizing s with
  | zero => rfl
  | succ k ih => exact ih _

theorem outputAt_add (c : Configuration) (a b : Nat) (s : BitVec c.n) :
    outputAt c (a + b) s = outputAt c b (stateAfter c a s) := by
  rw [outputAt, stateAfter_add, outputAt]

/-- Every single step is one SHIFT of state_register with the variant's inserted bit (R120, R153). -/
theorem stepC_fst (c : Configuration) (s : BitVec c.n) : (stepC c s).1 = shiftRegister c (insertedBit c s) s := by
  unfold stepC insertedBit shiftRegister
  cases hd : c.dir <;> cases hi : c.invert
  · rfl
  · rw [dir_of_invert hi] at hd; cases hd
  · rfl
  · rfl

/-- The output of a single step is sout, or in the inverted variant the inserted bit (R120, R152). -/
theorem stepC_snd (c : Configuration) (s : BitVec c.n) : (stepC c s).2 = outputBit c s := by
  unfold stepC outputBit shiftOut
  cases hd : c.dir <;> cases hi : c.invert
  · rfl
  · rw [dir_of_invert hi] at hd; cases hd
  · rfl
  · rfl

theorem bulkLoop_fst (c : Configuration) (k i : Nat) (s : BitVec c.n) (r : Bus) :
    (bulkLoop c k i s r).1 = stateAfter c k s := by
  induction k generalizing i s r with
  | zero => rfl
  | succ k ih => exact ih _ _ _

theorem bulkLoop_snd_getLsbD (c : Configuration) (k i : Nat) (s : BitVec c.n) (r : Bus) (h : i + k ≤ 128) (j : Nat) :
    (bulkLoop c k i s r).2.getLsbD j =
      (r.getLsbD j || (decide (i ≤ j ∧ j < i + k) && outputAt c (j - i) s)) := by
  induction k generalizing i s r with
  | zero =>
    simp [bulkLoop]
  | succ k ih =>
    show (bulkLoop c k (i + 1) (stepC c s).1 (packBit r i (stepC c s).2)).2.getLsbD j = _
    rw [ih _ _ _ (by omega), packBit_getLsbD, Bool.or_assoc]
    congr 1
    by_cases h1 : j = i
    · subst h1
      have : j < 128 := by omega
      simp [this, outputAt, stateAfter]
    · by_cases h2 : i + 1 ≤ j ∧ j < i + 1 + k
      · have h3 : i ≤ j ∧ j < i + (k + 1) := by omega
        obtain ⟨d, rfl⟩ : ∃ d, j = i + 1 + d := ⟨j - (i + 1), by omega⟩
        have e1 : i + 1 + d - (i + 1) = d := by omega
        have e2 : i + 1 + d - i = 1 + d := by omega
        simp [h1, h2, h3, e1, e2, outputAt_add, stateAfter]
      · have h3 : ¬ (i ≤ j ∧ j < i + (k + 1)) := by omega
        simp only [h1, h2, h3, decide_false, Bool.and_false, Bool.false_and, Bool.or_false]

/-- STATE after bulk stepping (R128). -/
theorem bulk_fst (c : Configuration) (k : Nat) (s : BitVec c.n) : (bulk c k s).1 = stateAfter c k s :=
  bulkLoop_fst c k 0 s 0

/-- Bit j of the packed result is the j-th output, and 0 from bit k on (R125, R130). -/
theorem bulk_snd_getLsbD (c : Configuration) (k : Nat) (s : BitVec c.n) (h : k ≤ 128) (j : Nat) :
    (bulk c k s).2.getLsbD j = (decide (j < k) && outputAt c j s) := by
  rw [bulk, bulkLoop_snd_getLsbD c k 0 s 0 (by omega)]
  simp

end Sys2Proof.Machine
end

