-- ==== Sys2Proof/Tests/Slice0.lean ====
section
/-! SUPPORT. Tests/Slice0.lean: small checks with results from spec/95_test_vectors.md and from the rules, and for each
statement with hypotheses a theorem named witness_<its name> that meets all of them. -/

namespace Sys2Proof.Tests

open Sys2Proof.Machine Sys2Proof.Safety Sys2Proof.Claims

/-! ## Configurations of the spec's vectors, with LAT = 1, and one with LAT(STEPN, 8) = 3 -/

def params (n : Nat) (taps : List Nat) (dir : Config.Dir) (invert : Bool) : Config.Params :=
  ⟨n, taps, dir, invert, 0x15EED, 0, []⟩

def c1R : Configuration := ⟨params 1 [1] .right false, by decide⟩
def c1I : Configuration := ⟨params 1 [1] .left true, by decide⟩
def c5R : Configuration := ⟨params 5 [5, 3] .right false, by decide⟩
def c5L : Configuration := ⟨params 5 [5, 3] .left false, by decide⟩
def c8L : Configuration := ⟨params 8 [8, 5] .left false, by decide⟩
def c8I : Configuration := ⟨params 8 [8, 5] .left true, by decide⟩
def c8Iodd : Configuration := ⟨params 8 [8, 6, 5] .left true, by decide⟩
def c16R : Configuration := ⟨params 16 [16, 14, 13, 11] .right false, by decide⟩
def c16L : Configuration := ⟨params 16 [16, 14, 13, 11] .left false, by decide⟩
def c32R : Configuration := ⟨params 32 [16, 14, 13, 11] .right false, by decide⟩
def c128R : Configuration := ⟨params 128 [128, 126, 101, 99] .right false, by decide⟩
def cLat3 : Configuration :=
  ⟨{ params 16 [16, 14, 13, 11] .right false with latTable := [⟨0x2, 8, 2⟩] }, by decide⟩

/-- A ready block with this STATE. -/
def ready (c : Configuration) (q : Nat) : State :=
  { State.resetOf c with q := BitVec.ofNat c.n q, rstSeen := false }

/-- STATE, rsp_data and rsp_err of a next state. -/
def result (o : Host.Outcome State Fault Refusal) : Option (Nat × Nat × Nat) :=
  match o with
  | .next t => some (t.q.toNat, t.rspData.toNat, t.rspErr.toNat)
  | .fault _ => none
  | .refused _ => none

/-- cmd_ready, busy, rsp_valid and STATE of a next state. -/
def signals (o : Host.Outcome State Fault Refusal) : Option (Bool × Bool × Bool × Nat) :=
  match o with
  | .next t => some (t.cmdReady, t.busy, t.rspValid, t.q.toNat)
  | .fault _ => none
  | .refused _ => none

/-- cmd_valid = 1 with this word at one edge. -/
def offer (op : Opcode) (arg : Bus) : HostAction := .drive ⟨false, true, op, arg⟩

/-- rst = 1 at one edge, with a command on the pins. -/
def resetPins : HostAction := .drive ⟨true, true, 0x1, 0⟩

/-! ## WellFormed, the encoding (R54, R55) -/

theorem test_wellFormed_refuses_reserved3 : WellFormed (.reserved 3 0) = false := by decide
theorem test_wellFormed_reserved8 : WellFormed (.reserved 8 0) = true := by decide
theorem test_decode_load : decode 0x1234ACE10#132 = .load 0x1234ACE1 := by decide
theorem test_decode_load_top : decode 0x800000000000000000000000000000000#132 = .load (1#128 <<< 127) := by decide
theorem test_decode_step : decode 0x1#132 = .step 0 := by decide
theorem test_decode_stepn : decode 0x812#132 = .stepn 129 := by decide
theorem test_decode_next16 : decode 0x3#132 = .next16 0 := by decide
theorem test_decode_next32 : decode 0x4#132 = .next32 0 := by decide
theorem test_decode_next64 : decode 0x5#132 = .next64 0 := by decide
theorem test_decode_value : decode 0x6#132 = .value 0 := by decide
theorem test_decode_state : decode 0x57#132 = .state 5 := by decide
theorem test_decode_reserved8 : decode 0x58#132 = .reserved 8 5 := by decide
theorem test_decode_reservedF : decode 0xF#132 = .reserved 0xF 0 := by decide
theorem test_encode_stepn : encode (.stepn 129) = 0x812#132 := by decide
theorem test_decodeTableWord : decodeTableWord 8 0x2 = some (.stepn 0) := by decide
theorem test_decodeTableWord_tooWide : decodeTableWord 136 (2 ^ 132) = none := by decide

/-! ## Configurations: V-E7, V-E8, R14 -/

/-- Which error elaboration names, if any. -/
def refusal (p : Config.Params) : Option ConfigError :=
  match elaborate p with
  | .ok _ => none
  | .error e => some e

theorem test_refused_invertedRight : refusal (params 8 [8, 5] .right true) = some .invertedRight := by decide
theorem test_refused_tapAboveN : refusal (params 8 [8, 9] .left false) = some .tapOutOfRange := by decide
theorem test_refused_empty : refusal (params 8 [] .left false) = some .emptyTapSet := by decide
theorem test_refused_repeated : refusal (params 8 [5, 5] .left false) = some .repeatedTap := by decide
theorem test_refused_width : refusal (params 129 [5] .left false) = some .widthOutOfRange := by decide
theorem test_elaborates_128 : refusal (params 128 [128] .left true) = none := by decide
theorem test_valueWidth : [1, 8, 9, 16, 17, 33, 64, 65, 128].map valueWidth = [8, 8, 16, 16, 32, 64, 64, 128, 128] := by
  decide

/-! ## The sub-blocks: V-F2, V-F3, V-F4, V-F8, R83 -/

theorem test_fb_V_F2 : fb c16R 0x5670 = true := by decide
theorem test_fb_V_F3 : (tapMask c16L).toNat = 0xB400 ∧ fb c16L 0xACE1 = true := by decide
theorem test_fb_V_F4 : (tapMask c32R).toNat = 0x002D0000 ∧ fb c32R 0xACE1 = false := by decide
theorem test_fb_V_F8 : (tapMask c8Iodd).toNat = 0xB0 ∧ fb c8Iodd 0xFF = true := by decide
theorem test_shift_one_bit : shiftRegister c1R true 0 = 1 ∧ shiftRegister c1I false 1 = 0 := by decide
theorem test_register_reserved_ctrl :
    stateRegisterEdge c5R false 0b11 0 true 7 = .fault .reservedCtrl := rfl

/-! ## The commands, one vector or two each -/

theorem test_load_V_L3 : result (exec (.load 0xFF) (ready c5R 0)) = some (0x1F, 0, 0) := by decide
theorem test_load_V_L4 : result (exec (.load (BitVec.allOnes 128)) (ready c128R 0)) = some (2 ^ 128 - 1, 0, 0) := by
  decide
theorem test_value_V_R1 : result (exec (.value 9) (ready c5R 0b10110)) = some (0x16, 0x16, 0) := by decide
theorem test_value_V_R4 : result (exec (.value 0) (ready c128R (2 ^ 127))) = some (2 ^ 127, 2 ^ 127, 0) := by decide
theorem test_state_V_E6 : result (exec (.state 5) (ready c16R 0xACE1)) = some (0xACE1, 0xACE1, 0) := by decide
theorem test_step_right_V_ST3 : result (exec (.step 0) (ready c5R 0x16)) = some (0x1B, 0, 0) := by decide
theorem test_step_left_V_ST2 : result (exec (.step 0) (ready c16L 0xACE1)) = some (0x59C3, 1, 0) := by decide
theorem test_step_inverted_V_I2 : result (exec (.step 0) (ready c8I 0x1F)) = some (0x3E, 0, 0) := by decide
theorem test_step_inverted_V_I4 : result (exec (.step 0) (ready c8Iodd 0xFF)) = some (0xFE, 0, 0) := by decide
theorem test_stepn_V_N10 : result (exec (.stepn 8) (ready c8L 0x01)) = some (0x09, 0x80, 0) := by decide
theorem test_stepn_V_I14 : result (exec (.stepn 4) (ready c1I 1)) = some (1, 0xA, 0) := by decide
theorem test_next16_V_N4 : result (exec (.next16 0) (ready c16R 0xACE1)) = some (0x4722, 0xACE1, 0) := by decide
theorem test_next16_V_I6 : result (exec (.next16 0) (ready c8I 0)) = some (0xC1, 0x831F, 0) := by decide
theorem test_next32_V_I8 : result (exec (.next32 0) (ready c8I 0)) = some (0x73, 0xCEEC831F, 0) := by
  decide +kernel
theorem test_next64_V_I9 : result (exec (.next64 0) (ready c8I 0)) = some (0xC8, 0x139F9228CEEC831F, 0) := by
  decide +kernel
theorem test_stepn_V_N7 : result (exec (.stepn 128) (ready c16R 0xACE1)) =
    some (0x4140, 0x5FA13E16EF528815E39DC4374722ACE1, 0) := by decide +kernel
theorem test_stepn_V_E1 : result (exec (.stepn 129) (ready c16R 0xACE1)) = some (0xACE1, 0, 2) := by decide
theorem test_reserved_V_E3 : result (exec (.reserved 8 5) (ready c16R 0xACE1)) = some (0xACE1, 0, 1) := by decide

/-! ## Single edges: V-T1, V-T2, V-T3 -/

theorem test_edge_afterReset :
    signals (step { State.resetOf c16R with host := [offer 0 0xACE1] }) = some (true, false, false, 0x5EED) := by decide
theorem test_edge_load :
    signals (step { ready c16R 0 with host := [offer 0 0xACE1] }) = some (true, false, true, 0xACE1) := by decide
theorem test_edge_accept_lat3 :
    (signals (step { ready cLat3 0xACE1 with host := [offer 2 8] })).map (fun p => (p.1, p.2.1, p.2.2.1)) =
      some (false, true, false) := by decide
theorem test_edge_respond :
    result (step { ready cLat3 0x22AC with seq := some ⟨.stepn 8, 1, ⟨0xE1, 0⟩⟩ }) = some (0x22AC, 0xE1, 0) := by decide
theorem test_edge_reset_in_flight :
    signals (step { ready cLat3 0x22AC with seq := some ⟨.stepn 8, 2, ⟨0xE1, 0⟩⟩, host := [resetPins] }) =
      some (false, false, false, 0x5EED) := by decide
theorem test_withFetchWord_runs :
    result (step ((ready c16R 0xACE1).withFetchWord 8 0x1)) = some (0x5670, 1, 0) := by decide

/-! ## Assembler text: R63, R64 -/

theorem test_asm_load :
    asmLine ['L', 'o', 'A', 'd', ' ', '0', 'x', 'A', 'c', ' ', ';', 'x'] = some (.command (.load 0xAC)) := by decide
theorem test_asm_cmd :
    asmLine ['.', 'c', 'm', 'd', ' ', '0', 'x', 'F', ',', ' ', '5'] = some (.command (.reserved 0xF 5)) := by decide
theorem test_asm_bad : asmLine ['S', 'T', 'E', 'P', ' ', '1'] = none := by decide
theorem test_asm_advance : advanceCommands 300 = [.stepn 128, .stepn 128, .stepn 44] := by decide
theorem test_asm_advance_none : advanceCommands 256 = [.stepn 128, .stepn 128] := by decide

/-! ## Witnesses: each meets all the hypotheses of the statement it is named after -/

theorem witness_ElaborationRefusesExactlyTheIllegal : ∃ c, elaborate (params 5 [5, 3] .right false) = .ok c := ⟨c5R, rfl⟩
theorem witness_FeedbackReadsOnlyTappedBits : ∀ t ∈ c5R.taps,
    (0b10110#5).getLsbD (tapPosition c5R t) = (0b11100#5).getLsbD (tapPosition c5R t) := by decide
theorem witness_FeedbackIgnoresTapOrder :
    [3, 5].Perm c5R.taps ∧ Config.Legal { c5R.val with taps := [3, 5] } := by decide
theorem witness_RegisterShift : c5R.dir = .right ∧ c5L.dir = .left ∧ 0 + 1 < c5R.n ∧ 3 + 1 < c5R.n := by decide
theorem witness_DecodeOfEncode : WellFormed (.reserved 0xF 5) = true ∧ WellFormed (.stepn 129) = true := by decide
theorem witness_OpcodeMap : 8 ≤ (8#4).toNat ∧ 8 ≤ (15#4).toNat := by decide
theorem witness_LoadIsIdempotent : ∃ t, exec (.load 0xFF) (ready c5R 0) = .next t := ⟨_, rfl⟩
theorem witness_StateReturnsState : 0 < (ready c5R 0x16).cfg.n ∧ 4 < (ready c5R 0x16).cfg.n := by decide
theorem witness_CountAbove128IsRefused : 128 < (129#128).toNat := by decide
theorem witness_LoadOfValueCopiesState : (ready c5R 0x16).cfg.n = (ready c5L 0).cfg.n := by decide
theorem witness_StepRight : (ready c5R 0x16).cfg.dir = .right ∧ 3 + 1 < (ready c5R 0x16).cfg.n := by decide
theorem witness_StepLeft : (ready c5L 0x16).cfg.dir = .left ∧ (ready c5L 0x16).cfg.invert = false ∧
    3 + 1 < (ready c5L 0x16).cfg.n := by decide
theorem witness_StepInverted : (ready c8I 0x1F).cfg.invert = true ∧ 6 + 1 < (ready c8I 0x1F).cfg.n := by decide
theorem witness_PlainZeroIsAbsorbing : c16R.invert = false ∧ c16L.invert = false := by decide
theorem witness_InvertedStepLeavesZero : c8I.invert = true ∧ c1I.invert = true ∧ c1I.n = 1 := by decide
theorem witness_InvertedAllOnes : c8I.invert = true ∧ c8I.taps.length % 2 = 0 ∧ c8Iodd.invert = true ∧
    c8Iodd.taps.length % 2 = 1 := by decide
theorem witness_StepIsBijectiveWithTapN : c8I.n ∈ c8I.taps := by decide
theorem witness_StepIsTwoToOneWithoutTapN : c32R.n ∉ c32R.taps := by decide
theorem witness_InvertedIsComplementOfPlain : c8I.invert = true ∧ c8I.taps.length % 2 = 0 := by decide
theorem witness_ReferenceRecurrences : c16R.dir = .right ∧ c16R.taps = [16, 14, 13, 11] ∧ c16R.n = 16 ∧
    c32R.dir = .right ∧ c32R.taps = [16, 14, 13, 11] ∧ c32R.n = 32 := by decide
theorem witness_ReferenceCycleLengths : c8I.dir = .left ∧ c8I.invert = true ∧ c8I.taps = [8, 5] ∧ c8I.n = 8 ∧
    (0, 217) ∈ [(0, 217), (6, 31), (26, 7)] ∧ 1 ≤ 217 ∧ 217 ≤ (0, 217).2 := by decide
theorem witness_StepnPacksOutputs : (0#128).toNat ≤ 128 ∧ (128#128).toNat ≤ 128 := by decide
theorem witness_StepnOfWidthReadsState :
    (ready c5R 0x16).cfg.invert = false ∧ (∃ t, exec (.stepn (BitVec.ofNat 128 c5R.n)) (ready c5R 0x16) = .next t) ∧
    (ready c5R 0x16).cfg.dir = .right ∧
    (ready c5L 0x16).cfg.invert = false ∧ (∃ t, exec (.stepn (BitVec.ofNat 128 c5L.n)) (ready c5L 0x16) = .next t) ∧
    (ready c5L 0x16).cfg.dir = .left := ⟨rfl, ⟨_, rfl⟩, rfl, rfl, ⟨_, rfl⟩, rfl⟩
theorem witness_StepnEqualsSteps : (8#128).toNat ≤ 128 := by decide
theorem witness_StepnComposes : 100 + 28 ≤ 128 ∧ 27 < 28 := by decide
theorem witness_NextIsStepn : (Instr.next64 0, 64) ∈ [(Instr.next16 0, 16), (Instr.next32 0, 32), (Instr.next64 0, 64)] := by
  decide
theorem witness_ResultsDependOnStateAndCommandsOnly :
    (ready c5R 0x16).cfg = { ready c5R 0x16 with rspErr := 2 }.cfg ∧
    (ready c5R 0x16).q.toNat = { ready c5R 0x16 with rspErr := 2 }.q.toNat := ⟨rfl, rfl⟩
theorem witness_StepRunsDecodedCommand :
    { ready c16R 0xACE1 with host := [offer 1 0] }.accepts = true ∧
    (∃ t, exec (decode { ready c16R 0xACE1 with host := [offer 1 0] }.word)
      { ready c16R 0xACE1 with host := [offer 1 0] } = .next t) ∧ WellFormed (.step 0) = true := ⟨rfl, ⟨_, rfl⟩, rfl⟩
theorem witness_ResetEdge : { ready c16R 0xACE1 with host := [resetPins] }.pins.rst = true := by decide
theorem witness_FirstEdgeAfterResetMakesReady :
    { State.resetOf c16R with host := [offer 0 0xACE1] }.rstSeen = true ∧
    { State.resetOf c16R with host := [offer 0 0xACE1] }.seq = none ∧
    { State.resetOf c16R with host := [offer 0 0xACE1] }.pins.rst = false := by decide
theorem witness_IdleEdgeHoldsState :
    (ready c16R 0xACE1).seq = none ∧ (ready c16R 0xACE1).pins.rst = false ∧
    (ready c16R 0xACE1).pins.cmdValid = false := by decide
theorem witness_NotReadyIgnoresCommandPins :
    { ready c16R 0 with seq := some ⟨.step 0, 1, ⟨1, 0⟩⟩ }.cmdReady = false ∧ (State.resetOf c16R).cmdReady = false ∧
    idlePins.rst = (⟨false, true, 1, 0⟩ : Pins).rst := by decide

/-- A ready block offered STEPN 8, whose LAT is 3. -/
def offered3 : State := { ready cLat3 0xACE1 with host := [offer 2 8] }

theorem offered3_resetFree : ResetFree offered3.host := by
  intro p hp
  obtain rfl : p = ⟨false, true, 2, 8⟩ := by simpa [offered3, offer] using hp
  rfl
theorem witness_ResponseComesAfterLatency :
    offered3.accepts = true ∧ ResetFree offered3.host ∧ (∃ t, exec (decode offered3.word) offered3 = .next t) ∧
    1 ≤ 2 ∧ 2 < latency offered3.cfg offered3.pins.cmdOp offered3.pins.cmdArg :=
  ⟨rfl, offered3_resetFree, ⟨_, rfl⟩, by decide, by decide⟩
theorem witness_BoundedCompletion : offered3.accepts = true ∧ ResetFree offered3.host := ⟨rfl, offered3_resetFree⟩

/-- Whether a step ends in a response cycle. -/
def responds (s : State) : Bool :=
  match step s with
  | .next t => t.rspValid
  | .fault _ => false
  | .refused _ => false

theorem next_of_responds {s : State} (h : responds s = true) : ∃ t, step s = .next t ∧ t.rspValid = true := by
  unfold responds at h
  split at h
  · rename_i t ht; exact ⟨t, ht, h⟩
  · cases h
  · cases h
theorem witness_ResponsesComeOnlyFromCommands :
    (∃ t, step { ready c16R 0xACE1 with host := [offer 1 0] } = .next t ∧ t.rspValid = true) ∧
    ∃ t, step { ready cLat3 0x22AC with seq := some ⟨.stepn 8, 1, ⟨0xE1, 0⟩⟩ } = .next t ∧ t.rspValid = true :=
  ⟨next_of_responds (by decide), next_of_responds (by decide)⟩
theorem witness_PortsShowState : (ready c5R 0x16).busy = false ∧ (ready c5R 0x16).cfg.n ≤ 5 := by decide
theorem witness_ConfigurationNeverChanges : ∃ t, step offered3 = .next t := ⟨_, rfl⟩
theorem witness_StateChangesOnlyByWritersAndReset :
    ∃ t, step { ready c16R 0xACE1 with host := [offer 1 0] } = .next t ∧ t.q.toNat ≠ (ready c16R 0xACE1).q.toNat :=
  ⟨_, rfl, by decide⟩
theorem witness_InvIsKeptByEveryEdge : Inv (ready c16R 0xACE1) ∧ ∃ t, step (ready c16R 0xACE1) = .next t := by
  refine ⟨?_, _, rfl⟩
  constructor <;> simp [ready, State.resetOf]

/-- The block of cLat3 one edge after it accepted STEPN 8 in STATE 0xACE1. -/
def inFlight3 : State := { ready cLat3 0x22AC with seq := some ⟨.stepn 8, 2, ⟨0xE1, 0⟩⟩ }

theorem inFlight3_rule :
    ∃ t, exec (.stepn 8) (ready cLat3 0xACE1) = .next t ∧ t.q.toNat = 0x22AC ∧ (⟨t.rspData, t.rspErr⟩ : Response) =
      ⟨0xE1, 0⟩ := ⟨_, rfl, by decide, by decide⟩

theorem witness_InvIsKeptByEveryEdge_inFlight : Inv inFlight3 ∧ ∃ t, step inFlight3 = .next t := by
  refine ⟨?_, _, rfl⟩
  have h : ∀ f, inFlight3.seq = some f → f = ⟨.stepn 8, 2, ⟨0xE1, 0⟩⟩ := fun f h => (Option.some.inj h).symm
  refine ⟨by decide, by decide, by decide, by decide, by decide, by decide, fun f hf => ?_, fun f hf => ?_, fun f hf => ?_⟩
  · rw [h f hf]; decide
  · rw [h f hf]; decide
  · rw [h f hf]
    obtain ⟨t, h1, h2, h3⟩ := inFlight3_rule
    exact ⟨ready cLat3 0xACE1, t, rfl, h1, h2, h3.symm⟩
theorem witness_ClockedRunRefinesCommandSequence :
    (∀ i ∈ [Instr.load 6, .stepn 31, .reserved 9 0], WellFormed i = true) ∧
    { ready c8I 0 with host := [Instr.load 6, .stepn 31, .reserved 9 0].map issueOf }.cmdReady = true ∧
    { ready c8I 0 with host := [Instr.load 6, .stepn 31, .reserved 9 0].map issueOf }.host =
      [Instr.load 6, .stepn 31, .reserved 9 0].map issueOf := by decide
theorem witness_CommandSequenceRunsFromReset :
    ∀ i ∈ [Instr.load 6, .stepn 31, .reserved 9 0], WellFormed i = true := by decide

end Sys2Proof.Tests
end

section
/-! The scope statements (spec/00_scope.md): elaboration (R16), VW (R14) and TAPMASK (R15, R101). -/

open Sys2Proof Sys2Proof.Machine Sys2Proof.Claims

namespace Sys2Proof.Scope

/-! ## Elaboration (R16) -/

theorem elaborate_of_legal {p : Config.Params} (h : Config.Legal p) : elaborate p = .ok ⟨p, h⟩ := by
  obtain ⟨hn, hn', he, ht, hd, hi⟩ := h
  rw [elaborate, dif_pos ⟨hn, hn'⟩, dif_pos he, dif_pos ht, dif_pos hd, dif_pos hi]

theorem val_of_elaborate_ok {p : Config.Params} {c : Configuration} (h : elaborate p = .ok c) : c.val = p := by
  by_cases hp : Config.Legal p
  · rw [elaborate_of_legal hp] at h
    cases h
    rfl
  · unfold elaborate at h
    split_ifs at h
    cases h
    rfl

theorem elaborate_error_iff (p : Config.Params) : (∃ e, elaborate p = .error e) ↔ ¬ Config.Legal p := by
  constructor
  · rintro ⟨e, he⟩ hp
    rw [elaborate_of_legal hp] at he
    cases he
  · intro hp
    cases hr : elaborate p with
    | error e => exact ⟨e, rfl⟩
    | ok c => exact absurd (val_of_elaborate_ok hr ▸ c.property) hp

/-- The violations of R16, one for each of its conditions. -/
theorem not_legal_iff (p : Config.Params) :
    ¬ Config.Legal p ↔
      (p.n < 1 ∨ 128 < p.n) ∨ p.taps = [] ∨ (∃ t ∈ p.taps, t < 1 ∨ p.n < t) ∨ ¬ p.taps.Nodup ∨
        (p.invert = true ∧ p.dir = Config.Dir.right) := by
  have hdir : p.dir ≠ .left ↔ p.dir = .right := by cases p.dir <;> decide
  simp only [Config.Legal, not_and_or, not_or, not_forall, not_le, ne_eq, not_not, Bool.not_eq_false, hdir,
    exists_prop, or_assoc]

/-! ## TAPMASK (R15, R101) -/

theorem tapPosition_eq_idx (c : Configuration) (t : Nat) : tapPosition c t = idx c t := by
  unfold tapPosition idx
  cases c.dir <;> rfl

theorem tapMask_getLsbD_iff (c : Configuration) (i : Nat) :
    (tapMask c).getLsbD i = true ↔ ∃ t ∈ c.taps, i = idx c t := by
  by_cases hi : i < c.n
  · rw [tapMask_getLsbD c i hi, decide_eq_true_iff]
  · constructor
    · exact fun h => absurd (BitVec.lt_of_getLsbD h) hi
    · rintro ⟨t, ht, rfl⟩
      exact absurd (idx_lt c ht) hi

theorem nodup_map_idx (c : Configuration) : (c.taps.map (idx c)).Nodup :=
  have ⟨_, _, _, _, hd, _⟩ := c.property
  hd.map_on fun _ ht _ hu h => idx_inj c ht hu h

theorem setBits_perm_map_idx (c : Configuration) :
    ((List.range c.n).filter fun i => (tapMask c).getLsbD i).Perm (c.taps.map (idx c)) := by
  rw [List.perm_ext_iff_of_nodup (List.nodup_range.filter _) (nodup_map_idx c)]
  intro i
  rw [List.mem_filter, List.mem_range, tapMask_getLsbD_iff, List.mem_map]
  constructor
  · rintro ⟨_, t, ht, rfl⟩
    exact ⟨t, ht, rfl⟩
  · rintro ⟨t, ht, rfl⟩
    exact ⟨idx_lt c ht, t, ht, rfl⟩

/-! ## VW (R14) -/

theorem valueWidth_mem (n : Nat) : valueWidth n ∈ [8, 16, 32, 64, 128] := by
  unfold valueWidth
  split_ifs <;> decide

theorem le_valueWidth {n : Nat} (h : n ≤ 128) : n ≤ valueWidth n := by
  unfold valueWidth
  split_ifs <;> assumption

theorem valueWidth_le {n w : Nat} (hw : w ∈ [8, 16, 32, 64, 128]) (h : n ≤ w) : valueWidth n ≤ w := by
  simp only [List.mem_cons, List.not_mem_nil, or_false] at hw
  unfold valueWidth
  split_ifs <;> omega

end Sys2Proof.Scope

open Sys2Proof.Scope

/-! ## The statements -/

/-- Settles O1: a legal configuration is elaborated to itself, and a configuration that elaboration answers carries its
proof of legality, so the error is the negation of R16's conditions. -/
theorem elaborationRefusesExactlyTheIllegal : Obligations.ElaborationRefusesExactlyTheIllegal :=
  fun p => ⟨(elaborate_error_iff p).trans (not_legal_iff p), fun _ => val_of_elaborate_ok⟩

/-- Settles O3: a bit of TAPMASK is set exactly at a tap's position, and distinct taps have distinct positions, so the
set bits are the positions of the taps up to order. -/
theorem tapMaskSelectsExactlyTheTaps : Obligations.TapMaskSelectsExactlyTheTaps := by
  intro c
  refine ⟨fun i => ?_, ?_⟩
  · simp only [tapPosition_eq_idx, tapMask_getLsbD_iff]
  · rw [(setBits_perm_map_idx c).length_eq, List.length_map]

/-- Settles O2: VW is one of the five widths, covers every N up to 128, and is below each of the five that covers N. -/
theorem valueWidthIsNarrowest : Obligations.ValueWidthIsNarrowest :=
  fun c => ⟨valueWidth_mem c.n, le_valueWidth (n_le_128 c), fun _ => valueWidth_le⟩

end

section
/-! The state statements (spec/10_state.md): what reset holds, what the ports show, and what an edge or a command can
do to the configuration, STATE and the response. -/

open Sys2Proof Sys2Proof.Machine Sys2Proof.Safety Sys2Proof.Claims

namespace Sys2Proof.StateRules

/-! ## The command on the pins (R54, R55) -/

@[simp] theorem decodeFields_opcode (op : Opcode) (arg : Bus) : (decodeFields op arg).opcode = op := by
  unfold decodeFields
  split
  case h_9 => rfl
  all_goals exact (BitVec.eq_of_toNat_eq ‹_›).symm

@[simp] theorem decodeFields_arg (op : Opcode) (arg : Bus) : (decodeFields op arg).arg = arg := by
  unfold decodeFields
  split <;> rfl

theorem decode_word_opcode (s : State) : (decode s.word).opcode = s.pins.cmdOp := by
  rw [State.word, decode_cmdWord, decodeFields_opcode]

theorem decode_word_arg (s : State) : (decode s.word).arg = s.pins.cmdArg := by
  rw [State.word, decode_cmdWord, decodeFields_arg]

/-! ## What a command reads and writes (R33, R80) -/

/-- The same configuration with the same STATE; everything else may differ (R33). -/
def SameRegister (s s' : State) : Prop := s.cfg = s'.cfg ∧ s.q.toNat = s'.q.toNat

/-- A command reads nothing but the configuration and STATE (R33). -/
theorem exec_sameRegister (i : Instr) {s s' : State} (h : SameRegister s s') :
    ∃ t t', exec i s = .next t ∧ exec i s' = .next t' ∧ SameRegister t t' ∧
      t.rspData = t'.rspData ∧ t.rspErr = t'.rspErr := by
  obtain ⟨c, q, _, _, _, _, _, _, _⟩ := s
  obtain ⟨c', q', _, _, _, _, _, _, _⟩ := s'
  obtain ⟨hc, hq⟩ := h
  obtain rfl : c = c' := hc
  obtain rfl : q = q' := BitVec.eq_of_toNat_eq hq
  cases i with
  | stepn count =>
    rcases Nat.lt_or_ge 128 count.toNat with hn | hn
    · exact ⟨_, _, execStepn_outOfRange hn _, execStepn_outOfRange hn _, ⟨rfl, rfl⟩, rfl, rfl⟩
    · exact ⟨_, _, execStepn_inRange hn _, execStepn_inRange hn _, ⟨rfl, rfl⟩, rfl, rfl⟩
  | _ => exact ⟨_, _, rfl, rfl, ⟨rfl, rfl⟩, rfl, rfl⟩

/-- A command that writes no STATE, or has an error, leaves STATE (R80, R88, R92, R168). -/
theorem exec_holds_state {i : Instr} (s : State) (h : ¬ (writesState i = true ∧ errOf i = errOk)) :
    ∃ data, exec i s = .next (respond data (errOf i) s) := by
  cases i with
  | stepn count =>
    rcases Nat.lt_or_ge 128 count.toNat with hn | hn
    · have he : errOf (.stepn count) = errCountRange := if_pos hn
      exact ⟨0, he ▸ execStepn_outOfRange hn s⟩
    · exact absurd ⟨rfl, if_neg (Nat.not_lt.2 hn)⟩ h
  | load _ | step _ | next16 _ | next32 _ | next64 _ => exact absurd ⟨rfl, rfl⟩ h
  | value _ | state _ | reserved _ _ => exact ⟨_, rfl⟩

/-- STATE changes only by a writing command without an error (R80). -/
theorem writes_of_q_ne {i : Instr} {s : State} {q' : BitVec s.cfg.n} {data : Bus}
    (he : exec i s = .next (respond data (errOf i) { s with q := q' })) (hq : q'.toNat ≠ s.q.toNat) :
    writesState i = true ∧ errOf i = errOk := by
  by_contra hw
  obtain ⟨data', he'⟩ := exec_holds_state s hw
  have ht := Host.Outcome.next.inj (he.symm.trans he')
  exact hq (congrArg (fun t : State => t.q.toNat) ht)

/-! ## What an edge leaves -/

/-- What the state after an edge can be: that of a reset edge, a response, a wait, an idle edge, or the command on the
pins. -/
theorem step_next_cases {s t : State} (h : step s = .next t) :
    (s.pins.rst = true ∧ t = tick s true (silent { s with q := resetValue s.cfg, seq := none })) ∨
    (s.pins.rst = false ∧ ∃ f, s.seq = some f ∧ f.left ≤ 1 ∧
      t = tick s false (respond f.rsp.data f.rsp.err { s with seq := none })) ∨
    (s.pins.rst = false ∧ ∃ f, s.seq = some f ∧ 1 < f.left ∧
      t = tick s false (silent { s with seq := some { f with left := f.left - 1 } })) ∨
    (s.pins.rst = false ∧ s.seq = none ∧ s.accepts = false ∧ t = tick s false (silent s)) ∨
    (s.pins.rst = false ∧ s.seq = none ∧ s.accepts = true ∧ ∃ q' data,
      exec (decode s.word) s = .next (respond data (errOf (decode s.word)) { s with q := q' }) ∧
      (errOf (decode s.word) ≠ errOk → data = 0) ∧
      t = tick s false (launch (decode s.word) (respond data (errOf (decode s.word)) { s with q := q' }))) := by
  have hcases := step_cases s
  simpa only [h, Host.Outcome.next.injEq] using hcases

/-- The cycle after the accepting edge is a response cycle only with LAT = 1. -/
theorem latency_eq_one_of_launch_rspValid {i : Instr} {t : State} (h : (launch i t).rspValid = true) :
    latency t.cfg i.opcode i.arg = 1 := by
  rcases launch_cases i t with ⟨he, -⟩ | ⟨e, -, hl⟩
  · rw [latency, he]
  · rw [hl, silent_rspValid] at h
    cases h

/-! ## The invariant with no response and nothing in flight -/

theorem inv_of_quiet {s : State} (hv : s.rspValid = false) (hs : s.seq = none)
    (hq : s.rstSeen = true → s.q = resetValue s.cfg) : Inv s where
  valid_idle := fun _ => hs
  valid_noReset := by simp [hv]
  valid_code := by simp [hv]
  valid_errorData := by simp [hv]
  reset_idle := fun _ => hs
  reset_value := hq
  flight_left := by simp [hs]
  flight_response := by simp [hs]
  flight_rule := by simp [hs]

/-! ## The ports with busy = 0 (R28, R29) -/

theorem stateQ_of_not_busy {s : State} (h : s.busy = false) : s.stateQ = s.q := by
  simp [State.stateQ, h]

theorem valueQ_of_not_busy {s : State} (h : s.busy = false) :
    s.valueQ = s.q.setWidth (valueWidth s.cfg.n) := by
  simp [State.valueQ, h]

theorem valueQ_toNat {s : State} (h : s.busy = false) : s.valueQ.toNat = s.q.toNat := by
  rw [valueQ_of_not_busy h]
  exact BitVec.toNat_setWidth_of_le (Scope.le_valueWidth (n_le_128 s.cfg))

theorem valueQ_getLsbD {s : State} (h : s.busy = false) (i : Nat) : s.valueQ.getLsbD i = s.q.getLsbD i := by
  rw [BitVec.getLsbD, BitVec.getLsbD, valueQ_toNat h]

end Sys2Proof.StateRules

open Sys2Proof.StateRules

/-! ## The statements -/

/-- Settles O42, by induction on the commands: each reads nothing but the configuration and STATE, and leaves the two
states with the same of both again. -/
theorem resultsDependOnStateAndCommandsOnly : Obligations.ResultsDependOnStateAndCommandsOnly := by
  intro is
  induction is with
  | nil => exact fun s s' hc hq => ⟨[], s, s', rfl, rfl, hc, hq⟩
  | cons i is ih =>
    intro s s' hc hq
    obtain ⟨t, t', he, he', ⟨htc, htq⟩, hd, herr⟩ := exec_sameRegister i ⟨hc, hq⟩
    obtain ⟨rs, u, u', hp, hp', hu⟩ := ih t t' htc htq
    refine ⟨⟨t.rspData, t.rspErr⟩ :: rs, u, u', ?_, ?_, hu⟩
    · simp only [perform, he, hp, Option.map_some]
    · simp only [perform, he', hp', Option.map_some, hd, herr]

/-- Settles O52: of the five kinds of edge only the last of a command in flight and an accepting one with LAT = 1 begin
a response cycle. -/
theorem responsesComeOnlyFromCommands : Obligations.ResponsesComeOnlyFromCommands := by
  intro s t h hv
  rcases step_next_cases h with ⟨-, rfl⟩ | ⟨hr, f, hf, hl, rfl⟩ | ⟨-, f, -, -, rfl⟩ | ⟨-, -, -, rfl⟩ |
    ⟨hr, hs, ha, q', data, -, -, rfl⟩
  · cases hv
  · exact ⟨hr, .inl ⟨f, hf, hl, rfl⟩⟩
  · cases hv
  · cases hv
  · refine ⟨hr, .inr ⟨hs, ha, ?_⟩⟩
    have hlat := latency_eq_one_of_launch_rspValid hv
    rwa [decode_word_opcode, decode_word_arg] at hlat

/-- Settles O54: none of the five kinds of edge writes the configuration. -/
theorem configurationNeverChanges : Obligations.ConfigurationNeverChanges := by
  intro s t h
  rcases step_next_cases h with ⟨-, rfl⟩ | ⟨-, f, -, -, rfl⟩ | ⟨-, f, -, -, rfl⟩ | ⟨-, -, -, rfl⟩ |
    ⟨-, -, -, q', data, -, -, rfl⟩
  · rfl
  · rfl
  · rfl
  · rfl
  · rw [tick_cfg, launch_cfg, respond_cfg]

/-- Settles O55: an edge of a command in flight and an idle edge hold STATE, and an accepting edge changes it only as
the command does. -/
theorem stateChangesOnlyByWritersAndReset : Obligations.StateChangesOnlyByWritersAndReset := by
  intro s t h hq
  rcases step_next_cases h with ⟨hr, -⟩ | ⟨-, f, -, -, rfl⟩ | ⟨-, f, -, -, rfl⟩ | ⟨-, -, -, rfl⟩ |
    ⟨-, -, ha, q', data, he, -, rfl⟩
  · exact .inl hr
  · exact absurd rfl hq
  · exact absurd rfl hq
  · exact absurd rfl hq
  · exact .inr ⟨ha, writes_of_q_ne he fun hq' => hq ((launch_q_toNat _ _).trans hq')⟩

/-- Settles O46: the fields of the state right after reset; its STATE is RESET_SEED taken in N bits. -/
theorem resetState : Obligations.ResetState :=
  fun c => ⟨rfl, BitVec.toNat_ofNat c.resetSeed c.n, rfl, rfl, rfl, rfl, rfl⟩

/-- Settles O53: with busy = 0 both ports are STATE, value_q in VW bits, which are at least N. -/
theorem portsShowState : Obligations.PortsShowState := by
  intro s hb
  refine ⟨?_, fun i => ⟨?_, valueQ_getLsbD hb i⟩, fun i hi => ?_, ?_⟩
  · rw [State.cmdReady, hb, Bool.not_false, Bool.true_and]
  · rw [stateQ_of_not_busy hb]
  · rw [valueQ_getLsbD hb, BitVec.getLsbD_of_ge s.q i hi]
  · rw [valueQ_toNat hb]
    exact s.q.isLt

/-- Settles O57: right after reset there is no response, nothing is in flight and STATE is the reset value. -/
theorem invHoldsAfterReset : Obligations.InvHoldsAfterReset :=
  fun _ => inv_of_quiet rfl rfl fun _ => rfl

end

section
/-! The memory statements (spec/20_memory.md): a repeated LOAD, the invariant every edge keeps, and the clocked block as
commands performed one after the other. -/

open Sys2Proof Sys2Proof.Machine Sys2Proof.Safety Sys2Proof.Claims Sys2Proof.StateRules

namespace Sys2Proof.MemoryRules

/-! ## The word of a command (R54, R55, R62) -/

theorem decodeFields_wellFormed (op : Opcode) (arg : Bus) : WellFormed (decodeFields op arg) = true := by
  unfold decodeFields
  split
  case h_9 =>
    have hop : 8 ≤ op.toNat := by
      simp only [imp_false] at *
      omega
    exact decide_eq_true hop
  all_goals rfl

theorem decode_wellFormed (w : CmdWord) : WellFormed (decode w) = true := decodeFields_wellFormed _ _

theorem decodeFields_opcode_arg {i : Instr} (h : WellFormed i = true) : decodeFields i.opcode i.arg = i := by
  cases i with
  | reserved op a =>
    have hop : 8 ≤ op.toNat := of_decide_eq_true h
    change decodeFields op a = _
    unfold decodeFields
    split
    case h_9 => rfl
    all_goals omega
  | _ => rfl

/-! ## What a command leaves -/

theorem exec_load (seed : Bus) (s : State) :
    exec (.load seed) s = .next (respond 0 errOk { s with q := seedOperand s.cfg seed }) :=
  command_load s _ false _ _

/-- No command has the code 0b11 (R61). -/
theorem errOf_ne_three (i : Instr) : errOf i ≠ 0b11#2 := by
  have hok : errOk ≠ 0b11#2 := by decide
  have hrange : errCountRange ≠ 0b11#2 := by decide
  have hillegal : errIllegalOp ≠ 0b11#2 := by decide
  cases i with
  | stepn count =>
    rcases Nat.lt_or_ge 128 count.toNat with hn | hn
    · exact (if_pos hn).trans_ne hrange
    · exact (if_neg (Nat.not_lt.2 hn)).trans_ne hok
  | reserved _ _ => exact hillegal
  | _ => exact hok

theorem exec_completes (i : Instr) (s : State) : ∃ t, exec i s = .next t :=
  have ⟨_, _, he, _⟩ := exec_answers i s
  ⟨_, he⟩

/-- A command responds, and writes neither the configuration nor the sequencer. -/
theorem exec_frame {i : Instr} {s t : State} (h : exec i s = .next t) :
    t.rspValid = true ∧ t.cfg = s.cfg ∧ t.seq = s.seq := by
  obtain ⟨q', data, he, -⟩ := exec_answers i s
  obtain rfl := Host.Outcome.next.inj (he.symm.trans h)
  exact ⟨rfl, rfl, rfl⟩

/-! ## The invariant by the kind of cycle -/

/-- What the invariant says of a command f in flight, with STATE holding q: f is a word with fewer than its latency of
edges to go, and holds the response of its rule. -/
structure FlightInv (c : Configuration) (q : Nat) (f : InFlight) : Prop where
  wellFormed : WellFormed f.instr = true
  left_pos : 1 ≤ f.left
  left_lt : f.left < latency c f.instr.opcode f.instr.arg
  err : f.rsp.err = errOf f.instr
  errorData : f.rsp.err ≠ errOk → f.rsp.data = 0
  rule : ∃ s₀ t, s₀.cfg = c ∧ exec f.instr s₀ = .next t ∧ t.q.toNat = q ∧ f.rsp = ⟨t.rspData, t.rspErr⟩

theorem flightInv_of_inv {s : State} {f : InFlight} (h : Inv s) (hf : s.seq = some f) :
    FlightInv s.cfg s.q.toNat f :=
  have ⟨hw, hp, hl⟩ := h.flight_left f hf
  have ⟨he, hd⟩ := h.flight_response f hf
  ⟨hw, hp, hl, he, hd, h.flight_rule f hf⟩

/-- A command with an edge less to go still meets the invariant. -/
theorem FlightInv.wait {c : Configuration} {q : Nat} {f : InFlight} (h : FlightInv c q f) (hl : 1 < f.left) :
    FlightInv c q { f with left := f.left - 1 } where
  wellFormed := h.wellFormed
  left_pos := Nat.le_sub_one_of_lt hl
  left_lt := Nat.lt_of_le_of_lt (Nat.sub_le _ _) h.left_lt
  err := h.err
  errorData := h.errorData
  rule := h.rule

theorem inv_of_response {s : State} (hs : s.seq = none) (hr : s.rstSeen = false) (hc : s.rspErr ≠ 0b11#2)
    (hd : s.rspErr ≠ errOk → s.rspData = 0) : Inv s where
  valid_idle := fun _ => hs
  valid_noReset := fun _ => hr
  valid_code := fun _ => hc
  valid_errorData := fun _ => hd
  reset_idle := fun _ => hs
  reset_value := by simp [hr]
  flight_left := by simp [hs]
  flight_response := by simp [hs]
  flight_rule := by simp [hs]

theorem inv_of_inFlight {s : State} {f : InFlight} (hv : s.rspValid = false) (hr : s.rstSeen = false)
    (hs : s.seq = some f) (hf : FlightInv s.cfg s.q.toNat f) : Inv s :=
  have same {g : InFlight} (hg : s.seq = some g) : f = g := Option.some.inj (hs.symm.trans hg)
  { valid_idle := by simp [hv]
    valid_noReset := by simp [hv]
    valid_code := by simp [hv]
    valid_errorData := by simp [hv]
    reset_idle := by simp [hr]
    reset_value := by simp [hr]
    flight_left := fun _ hg => same hg ▸ ⟨hf.wellFormed, hf.left_pos, hf.left_lt⟩
    flight_response := fun _ hg => same hg ▸ ⟨hf.err, hf.errorData⟩
    flight_rule := fun _ hg => same hg ▸ hf.rule }

/-- The cycle after an accepting edge meets the invariant: with LAT = 1 it is a response cycle, else the command is in
flight with its response held (R198). -/
theorem inv_accept {i : Instr} {s : State} {q' : BitVec s.cfg.n} {data : Bus} (hi : WellFormed i = true)
    (hs : s.seq = none) (he : exec i s = .next (respond data (errOf i) { s with q := q' }))
    (hd : errOf i ≠ errOk → data = 0) :
    Inv (tick s false (launch i (respond data (errOf i) { s with q := q' }))) := by
  rcases launch_cases i (respond data (errOf i) { s with q := q' }) with ⟨-, hl⟩ | ⟨e, hlat, hl⟩
  · rw [hl]
    exact inv_of_response hs rfl (errOf_ne_three i) hd
  · rw [hl]
    have hleft : e + 1 < latency s.cfg i.opcode i.arg := by
      rw [latency, show extraLatency s.cfg i.opcode i.arg = e + 1 from hlat]
      omega
    exact inv_of_inFlight rfl rfl rfl ⟨hi, Nat.le_add_left 1 e, hleft, rfl, hd, s, _, rfl, he, rfl, rfl⟩

/-! ## The host over an edge (R197, R208) -/

theorem resetFree_issues (is : List Instr) : ResetFree (is.map issueOf) := by
  intro p hp
  obtain ⟨i, -, hi⟩ := List.mem_map.1 hp
  cases hi

theorem pins_rst_of_resetFree {s : State} (h : ResetFree s.host) : s.pins.rst = false := by
  unfold State.pins
  split
  case h_1 => rfl
  case h_2 p rest hh => exact h p (hh ▸ List.mem_cons_self)
  case h_3 => rfl

theorem hostAfter_subset (s : State) : s.hostAfter ⊆ s.host := by
  unfold State.hostAfter
  split
  case h_1 => exact List.nil_subset _
  case h_2 hh => exact hh ▸ List.subset_cons_self _ _
  case h_3 hh =>
    rw [hh]
    split
    · exact List.subset_cons_self _ _
    · exact List.Subset.refl _

theorem resetFree_hostAfter {s : State} (h : ResetFree s.host) : ResetFree s.hostAfter :=
  fun p hp => h p (hostAfter_subset s hp)

/-- The host holds its words while none is accepted. -/
theorem hostAfter_issues_held {s : State} {is : List Instr} (ha : s.accepts = false) (hh : s.host = is.map issueOf) :
    s.hostAfter = is.map issueOf := by
  cases is with
  | nil => simp [State.hostAfter, hh]
  | cons i is => simp [State.hostAfter, hh, issueOf, ha]

theorem hostAfter_issue_accepted {s : State} {i : Instr} {rest : List HostAction} (ha : s.accepts = true)
    (hh : s.host = issueOf i :: rest) : s.hostAfter = rest := by
  simp [State.hostAfter, hh, issueOf, ha]

theorem pins_issue {s : State} {i : Instr} {rest : List HostAction} (hh : s.host = issueOf i :: rest) :
    s.pins = ⟨false, true, i.opcode, i.arg⟩ := by
  simp [State.pins, hh, issueOf]

theorem accepts_issue {s : State} {i : Instr} {rest : List HostAction} (hr : s.cmdReady = true)
    (hh : s.host = issueOf i :: rest) : s.accepts = true := by
  rw [State.accepts, pins_issue hh, hr]
  rfl

theorem decode_word_issue {s : State} {i : Instr} {rest : List HostAction} (hi : WellFormed i = true)
    (hh : s.host = issueOf i :: rest) : decode s.word = i := by
  rw [State.word, pins_issue hh, decode_cmdWord, decodeFields_opcode_arg hi]

theorem not_accepts_of_inFlight {s : State} {f : InFlight} (hf : s.seq = some f) : s.accepts = false := by
  simp [State.accepts, State.cmdReady, State.busy, hf]

/-! ## The run of one command (R198, R199) -/

/-- The state u in the response cycle of a command: the response r, a ready block, the configuration and STATE of t, and,
where host is all words to issue, a host that still has every one of them. -/
structure Answered (r : Response) (t : State) (host : List HostAction) (u : State) : Prop where
  response : responseOf u = some r
  ready : u.cmdReady = true
  register : SameRegister t u
  issues : ∀ is : List Instr, host = is.map issueOf → u.host = is.map issueOf

/-- A command in flight with k + 1 edges to go shows its response after them and nothing before. -/
theorem runEdges_inFlight {k : Nat} {s : State} {f : InFlight} (hf : s.seq = some f) (hk : f.left = k + 1)
    (hh : ResetFree s.host) : ∃ u, runEdges (k + 1) s = some ([f.rsp], u) ∧ Answered f.rsp s s.host u := by
  induction k generalizing s f with
  | zero =>
    rw [runEdges_succ (step_respond (pins_rst_of_resetFree hh) hf (by omega))]
    exact ⟨_, rfl, rfl, rfl, ⟨rfl, rfl⟩, fun _ => hostAfter_issues_held (not_accepts_of_inFlight hf)⟩
  | succ k ih =>
    have hleft : f.left - 1 = k + 1 := by omega
    obtain ⟨u, hrun, hans⟩ := ih (s := tick s false (silent { s with seq := some { f with left := f.left - 1 } })) rfl
      hleft (resetFree_hostAfter hh)
    rw [runEdges_succ (step_wait (pins_rst_of_resetFree hh) hf (by omega)), hrun]
    exact ⟨u, rfl, hans.response, hans.ready, hans.register,
      fun is his => hans.issues is (hostAfter_issues_held (not_accepts_of_inFlight hf) his)⟩

/-- The edges of the latency of an accepted command show its response alone, at the last of them. -/
theorem runEdges_accepted {s t : State} (ha : s.accepts = true) (hh : ResetFree s.host)
    (he : exec (decode s.word) s = .next t) :
    ∃ u, runEdges (latency s.cfg (decode s.word).opcode (decode s.word).arg) s = some ([⟨t.rspData, t.rspErr⟩], u) ∧
      Answered ⟨t.rspData, t.rspErr⟩ t s.hostAfter u := by
  obtain ⟨-, -, hs, -⟩ := (accepts_iff s).1 ha
  obtain ⟨hv, hc, hts⟩ := exec_frame he
  have hstep : step s = .next (tick s false (launch (decode s.word) t)) := by
    rw [step_accept ha, he, mapNext]
  rw [← hc, latency]
  rcases launch_cases (decode s.word) t with ⟨hlat, hl⟩ | ⟨e, hlat, hl⟩
  · rw [hl] at hstep
    have hresp : responseOf (tick s false t) = some ⟨t.rspData, t.rspErr⟩ := if_pos hv
    have hready : (tick s false t).cmdReady = true := (cmdReady_iff _).2 ⟨hts.trans hs, rfl⟩
    rw [hlat, runEdges_succ hstep, hresp]
    exact ⟨tick s false t, rfl, hresp, hready, ⟨rfl, rfl⟩, fun _ his => his⟩
  · rw [hl] at hstep
    obtain ⟨u, hrun, hans⟩ := runEdges_inFlight (s := tick s false (silent
      { t with seq := some ⟨decode s.word, e + 1, ⟨t.rspData, t.rspErr⟩⟩ })) rfl rfl (resetFree_hostAfter hh)
    rw [hlat, Nat.add_comm 1, runEdges_succ hstep, hrun]
    exact ⟨u, rfl, hans.response, hans.ready, hans.register, hans.issues⟩

/-! ## The commands one after the other (R47) -/

theorem perform_cons {i : Instr} {s t : State} (h : exec i s = .next t) (is : List Instr) :
    perform (i :: is) s = (perform is t).map (fun p => (⟨t.rspData, t.rspErr⟩ :: p.1, p.2)) := by
  rw [perform, h]

/-- The same commands on the same register give the same responses and leave the same register (R33). -/
theorem perform_sameRegister {is : List Instr} {s s' t' : State} {rs : List Response} (h : SameRegister s s')
    (hp : perform is s' = some (rs, t')) : ∃ t, perform is s = some (rs, t) ∧ SameRegister t t' := by
  obtain ⟨rs', t, u', hs, hs', hreg⟩ := resultsDependOnStateAndCommandsOnly is s s' h.1 h.2
  obtain ⟨rfl, rfl⟩ := Prod.mk.inj (Option.some.inj (hs'.symm.trans hp))
  exact ⟨t, hs, hreg⟩

end Sys2Proof.MemoryRules

open Sys2Proof.MemoryRules

/-! ## The statements -/

/-- Settles O58, by the five kinds of edge: a reset and an idle edge leave a quiet block, the last edge of a command in
flight begins a response cycle, a wait leaves the command in flight, and an accepting edge leaves either of the two. -/
theorem invIsKeptByEveryEdge : Obligations.InvIsKeptByEveryEdge := by
  intro s t h hstep
  rcases step_next_cases hstep with ⟨-, rfl⟩ | ⟨-, f, hf, -, rfl⟩ | ⟨-, f, hf, hl, rfl⟩ | ⟨-, hs, -, rfl⟩ |
    ⟨-, hs, -, q', data, he, hd, rfl⟩
  · exact inv_of_quiet rfl rfl fun _ => rfl
  · have hflight := flightInv_of_inv h hf
    exact inv_of_response rfl rfl (hflight.err ▸ errOf_ne_three f.instr) hflight.errorData
  · exact inv_of_inFlight rfl rfl rfl ((flightInv_of_inv h hf).wait hl)
  · exact inv_of_quiet rfl hs nofun
  · exact inv_accept (decode_wellFormed s.word) hs he hd

/-- Settles O59, by induction on the commands: the edges of the first one's latency show its response and leave a ready
block with its STATE, on which, as on the state the command leaves by itself, the others give the same responses. -/
theorem clockedRunRefinesCommandSequence : Obligations.ClockedRunRefinesCommandSequence := by
  intro is
  induction is with
  | nil => exact fun s _ hr hh => ⟨[], s, s, rfl, rfl, rfl, rfl, rfl, hr, hh⟩
  | cons i is ih =>
    intro s hw hr hh
    obtain ⟨hi, his⟩ := List.forall_mem_cons.1 hw
    have ha := accepts_issue hr hh
    have hdec := decode_word_issue hi hh
    obtain ⟨t, he⟩ := exec_completes i s
    obtain ⟨u, hrun, hans⟩ := runEdges_accepted ha (hh ▸ resetFree_issues (i :: is)) (hdec.symm ▸ he)
    rw [hdec] at hrun
    have hcfg : u.cfg = s.cfg := hans.register.1.symm.trans (exec_frame he).2.1
    obtain ⟨rs, v, w, hperf, hrest, hlen, hwc, hwq, hready, hhost⟩ :=
      ih u his hans.ready (hans.issues is (hostAfter_issue_accepted ha hh))
    obtain ⟨t', hperf', htc, htq⟩ := perform_sameRegister hans.register hperf
    refine ⟨⟨t.rspData, t.rspErr⟩ :: rs, t', w, ?_, ?_, congrArg (· + 1) hlen, hwc.trans htc.symm,
      hwq.trans htq.symm, hready, hhost⟩
    · rw [perform_cons he, hperf', Option.map_some]
    · exact runEdges_add _ _ s u w _ _ hrun (hcfg ▸ hrest)

/-- Settles O16: the state that LOAD leaves depends on the seed and on what LOAD does not write. -/
theorem loadIsIdempotent : Obligations.LoadIsIdempotent := by
  intro seed s t h
  obtain rfl := Host.Outcome.next.inj ((exec_load seed s).symm.trans h)
  exact exec_load seed _

end

section
/-! The encoding statements (spec/30_encoding.md): the command word and its command, the errors, and the commands of
ADVANCE. -/

open Sys2Proof Sys2Proof.Machine Sys2Proof.Safety Sys2Proof.Claims Sys2Proof.StateRules Sys2Proof.MemoryRules

namespace Sys2Proof.EncodingRules

/-! ## The command word (R54 to R56) -/

theorem decode_encode {i : Instr} (h : WellFormed i = true) : decode (encode i) = i := by
  rw [encode, decode_cmdWord, decodeFields_opcode_arg h]

theorem encode_decode (w : CmdWord) : encode (decode w) = w := by
  rw [encode, decode, decodeFields_opcode, decodeFields_arg, cmdWord_fields]

theorem decode_eq_of_encode_eq {i : Instr} {w : CmdWord} (hi : WellFormed i = true) (hw : encode i = w) :
    decode w = i :=
  hw ▸ decode_encode hi

/-! ## The errors (R61, R168) -/

theorem errOf_stepn_legal {count : Bus} (h : count.toNat ≤ 128) : errOf (.stepn count) = errOk :=
  if_neg (Nat.not_lt.2 h)

theorem errOf_stepn_outOfRange {count : Bus} (h : 128 < count.toNat) : errOf (.stepn count) = errCountRange :=
  if_pos h

theorem errOf_eq_illegalOp_iff (i : Instr) : errOf i = errIllegalOp ↔ ∃ op a, i = .reserved op a := by
  have hok : errOk ≠ errIllegalOp := by decide
  have hrange : errCountRange ≠ errIllegalOp := by decide
  cases i with
  | reserved op a => exact iff_of_true rfl ⟨op, a, rfl⟩
  | stepn count =>
    rcases Nat.lt_or_ge 128 count.toNat with hn | hn
    · exact iff_of_false ((errOf_stepn_outOfRange hn).trans_ne hrange) nofun
    · exact iff_of_false ((errOf_stepn_legal hn).trans_ne hok) nofun
  | _ => exact iff_of_false hok nofun

theorem errOf_eq_countRange_iff (i : Instr) : errOf i = errCountRange ↔ ∃ n, i = .stepn n ∧ 128 < n.toNat := by
  have hok : errOk ≠ errCountRange := by decide
  have hillegal : errIllegalOp ≠ errCountRange := by decide
  cases i with
  | stepn count =>
    rcases Nat.lt_or_ge 128 count.toNat with hn | hn
    · exact iff_of_true (errOf_stepn_outOfRange hn) ⟨count, rfl, hn⟩
    · refine iff_of_false ((errOf_stepn_legal hn).trans_ne hok) fun ⟨n, hi, hn'⟩ => ?_
      obtain rfl := Instr.stepn.inj hi
      exact Nat.not_lt.2 hn hn'
  | reserved _ _ => exact iff_of_false hillegal nofun
  | _ => exact iff_of_false hok nofun

/-- A command with an error answers the response (0, its code) with STATE held (R168). -/
theorem exec_of_error {i : Instr} (h : errOf i ≠ errOk) (s : State) :
    exec i s = .next (respond 0 (errOf i) s) := by
  obtain ⟨data, hx⟩ := exec_holds_state s fun hw => h hw.2
  obtain ⟨q', data', hx', hd⟩ := exec_answers i s
  have hdata : data = data' := congrArg State.rspData (Host.Outcome.next.inj (hx.symm.trans hx'))
  rw [hx, hdata, hd h]

/-! ## Sequences of STEPN and ADVANCE (R64, R132) -/

theorem stateAfterSteps_eq (c : Configuration) (k : Nat) (s : BitVec c.n) :
    stateAfterSteps c k s = stateAfter c k s :=
  (stateAfter_eq_iterate c k s).symm

/-- STEPN commands with legal counts perform as many single steps as the counts add up to, and all answer OK (R132). -/
theorem perform_stepns (counts : List Bus) (s : State) (h : ∀ n ∈ counts, n.toNat ≤ 128) :
    ∃ rs t, perform (counts.map .stepn) s = some (rs, t) ∧ t.cfg = s.cfg ∧
      t.q.toNat = (stateAfter s.cfg (counts.map BitVec.toNat).sum s.q).toNat ∧ ∀ r ∈ rs, r.err = errOk := by
  induction counts generalizing s with
  | nil => exact ⟨[], s, rfl, rfl, rfl, nofun⟩
  | cons n counts ih =>
    obtain ⟨hn, hcounts⟩ := List.forall_mem_cons.1 h
    obtain ⟨rs, t, hp, hc, hq, hr⟩ := ih (respond (bulk s.cfg n.toNat s.q).2 errOk
      { s with q := (bulk s.cfg n.toNat s.q).1 }) hcounts
    refine ⟨⟨(bulk s.cfg n.toNat s.q).2, errOk⟩ :: rs, t, ?_, hc, ?_, List.forall_mem_cons.2 ⟨rfl, hr⟩⟩
    · have hx : exec (.stepn n) s = _ := execStepn_inRange hn s
      rw [List.map_cons, perform_cons hx, hp]
      rfl
    · rw [List.map_cons, List.sum_cons, stateAfter_add, ← bulk_fst s.cfg n.toNat]
      exact hq

/-- The counts of the commands of ADVANCE k (R64). -/
def advanceCounts (k : Nat) : List Bus :=
  List.replicate (k / 128) 128 ++ if k % 128 = 0 then [] else [BitVec.ofNat 128 (k % 128)]

theorem advanceCommands_eq (k : Nat) : advanceCommands k = (advanceCounts k).map .stepn := by
  rw [advanceCommands, advanceCounts, List.map_append, List.map_replicate]
  split <;> rfl

/-- The remainder fits the argument of STEPN. -/
theorem remainder_toNat (k : Nat) : (BitVec.ofNat 128 (k % 128)).toNat = k % 128 := by
  rw [BitVec.toNat_ofNat]
  omega

theorem advanceCounts_le (k : Nat) : ∀ n ∈ advanceCounts k, n.toNat ≤ 128 := by
  intro n hn
  rcases List.mem_append.1 hn with hn | hn
  · rw [List.eq_of_mem_replicate hn]
    decide
  · split at hn
    · cases hn
    · rw [List.mem_singleton.1 hn, remainder_toNat]
      omega

theorem advanceCounts_sum (k : Nat) : ((advanceCounts k).map BitVec.toNat).sum = k := by
  have hcopies : ((List.replicate (k / 128) (128 : Bus)).map BitVec.toNat).sum = 128 * (k / 128) := by
    rw [List.map_replicate, List.sum_replicate, smul_eq_mul, Nat.mul_comm]
    rfl
  rw [advanceCounts, List.map_append, List.sum_append, hcopies]
  split
  case isTrue h => exact Nat.mul_div_cancel' (Nat.dvd_of_mod_eq_zero h)
  case isFalse =>
    rw [List.map_singleton, List.sum_singleton, remainder_toNat]
    exact Nat.div_add_mod k 128

end Sys2Proof.EncodingRules

open Sys2Proof.EncodingRules

/-! ## The statements -/

/-- Settles O10: the word holds the opcode and the whole argument, and they select the command they come from. -/
theorem decodeOfEncode : Obligations.DecodeOfEncode := fun _ => decode_encode

/-- Settles O11: the row that a word's opcode selects keeps the opcode and the argument, which make up the word. -/
theorem encodeOfDecode : Obligations.EncodeOfDecode := fun w => ⟨decode_wellFormed w, encode_decode w⟩

/-- Settles O40: the commands of ADVANCE k are STEPN commands with legal counts that add up to k. -/
theorem advancePerformsKSteps : Obligations.AdvancePerformsKSteps := by
  intro k s
  have hrun := perform_stepns (advanceCounts k) s (advanceCounts_le k)
  rwa [advanceCounts_sum, ← stateAfterSteps_eq, ← advanceCommands_eq] at hrun

/-- Settles O41: without an error STATE and the data are the command's own, and with one they are held and 0. -/
theorem everyCommandCompletes : Obligations.EveryCommandCompletes := by
  intro i s
  have hillegal := errOf_eq_illegalOp_iff i
  have hrange := errOf_eq_countRange_iff i
  have hthree := errOf_ne_three i
  by_cases he : errOf i = errOk
  · obtain ⟨q', data, hx, -⟩ := exec_answers i s
    exact ⟨q', data, errOf i, hx, hillegal, hrange, hthree, fun h => absurd he h⟩
  · exact ⟨s.q, 0, errOf i, exec_of_error he s, hillegal, hrange, hthree, fun _ => ⟨rfl, rfl⟩⟩

/-- Settles O12: each word is that of the command its opcode selects, with that argument. -/
theorem opcodeMap : Obligations.OpcodeMap :=
  fun arg => ⟨decode_encode (i := .load arg) rfl, decode_encode (i := .step arg) rfl,
    decode_encode (i := .stepn arg) rfl, decode_encode (i := .next16 arg) rfl, decode_encode (i := .next32 arg) rfl,
    decode_encode (i := .next64 arg) rfl, decode_encode (i := .value arg) rfl, decode_encode (i := .state arg) rfl,
    fun op hop => decode_encode (i := .reserved op arg) (decide_eq_true hop)⟩

/-- Settles O13: each of the words is the word of its command. -/
theorem sampleWords : Obligations.SampleWords := by
  unfold Obligations.SampleWords
  and_intros <;> exact decode_eq_of_encode_eq rfl rfl

/-- Settles O14: the meaning of each of these commands is given without the argument. -/
theorem ignoredArgumentChangesNothing : Obligations.IgnoredArgumentChangesNothing :=
  fun _ _ _ _ _ => ⟨rfl, rfl, rfl, rfl, rfl, rfl, rfl⟩

/-- Settles O15: LOAD drives the register with the seed taken in N bits. -/
theorem loadSetsState : Obligations.LoadSetsState := by
  intro seed s
  refine ⟨decode_encode (i := .load seed) rfl, seedOperand s.cfg seed, exec_load seed s, ?_, fun i hi => ?_⟩
  · exact BitVec.toNat_setWidth s.cfg.n seed
  · rw [seedOperand, BitVec.getLsbD_setWidth, decide_eq_true hi, Bool.true_and]

/-- Settles O19: the error response of a reserved opcode. -/
theorem reservedIsIllegalOp : Obligations.ReservedIsIllegalOp := fun _ _ s => raiseError_eq errIllegalOp s

/-- Settles O20: the error response of a count out of range. -/
theorem countAbove128IsRefused : Obligations.CountAbove128IsRefused := fun _ s hn => execStepn_outOfRange hn s

/-- Settles O56: each of the five kinds of edge answers a next state. -/
theorem everyEdgeCompletes : Obligations.EveryEdgeCompletes := by
  intro s
  rcases step_cases s with ⟨-, h⟩ | ⟨-, f, -, -, h⟩ | ⟨-, f, -, -, h⟩ | ⟨-, -, -, h⟩ | ⟨-, -, -, q', data, -, -, h⟩
  all_goals exact ⟨_, h⟩

end

section
/-! The statements about the state operations (spec/40_state_ops.md): state_register (R82, R83, R86), VALUE and STATE
(R88, R92), and the edge that holds STATE (R80). -/

open Sys2Proof Sys2Proof.Machine Sys2Proof.Safety Sys2Proof.Claims Sys2Proof.Scope Sys2Proof.StateRules
  Sys2Proof.MemoryRules Sys2Proof.EncodingRules

namespace Sys2Proof.StateOpsRules

/-! ## The shift of state_register (R83) -/

theorem shiftOut_right {c : Configuration} (h : c.dir = .right) (q : BitVec c.n) :
    shiftOut c q = q.getLsbD 0 := by
  rw [shiftOut, h]

theorem shiftOut_left {c : Configuration} (h : c.dir = .left) (q : BitVec c.n) :
    shiftOut c q = q.getLsbD (c.n - 1) := by
  rw [shiftOut, h]

theorem shiftRegister_right_moved {c : Configuration} (h : c.dir = .right) (sin : Bool) (q : BitVec c.n) {i : Nat}
    (hi : i + 1 < c.n) : (shiftRegister c sin q).getLsbD i = q.getLsbD (i + 1) := by
  rw [shiftRegister_right h, if_neg (Nat.ne_of_lt hi)]

theorem shiftRegister_right_inserted {c : Configuration} (h : c.dir = .right) (sin : Bool) (q : BitVec c.n) :
    (shiftRegister c sin q).getLsbD (c.n - 1) = sin := by
  rw [shiftRegister_right h, if_pos (Nat.sub_add_cancel (one_le_n c))]

theorem shiftRegister_left_moved {c : Configuration} (h : c.dir = .left) (sin : Bool) (q : BitVec c.n) {i : Nat}
    (hi : i + 1 < c.n) : (shiftRegister c sin q).getLsbD (i + 1) = q.getLsbD i := by
  rw [shiftRegister_left h, if_neg (Nat.succ_ne_zero i), decide_eq_true hi, Bool.true_and, Nat.add_sub_cancel]

theorem shiftRegister_left_inserted {c : Configuration} (h : c.dir = .left) (sin : Bool) (q : BitVec c.n) :
    (shiftRegister c sin q).getLsbD 0 = sin := by
  rw [shiftRegister_left h, if_pos rfl]

/-! ## The register on the response bus (R88, R92) -/

theorem valueWidth_le_128 (c : Configuration) : valueWidth c.n ≤ 128 := valueWidth_le (by decide) (n_le_128 c)

/-- Going through VW bits loses no bit of STATE on its way to the bus. -/
theorem zextBus_setWidth_valueWidth (c : Configuration) (q : BitVec c.n) :
    zextBus (q.setWidth (valueWidth c.n)) = zextBus q := by
  apply BitVec.eq_of_toNat_eq
  rw [zextBus_toNat (valueWidth_le_128 c), BitVec.toNat_setWidth_of_le (le_valueWidth (n_le_128 c)),
    zextBus_toNat (n_le_128 c)]

theorem exec_state (a : Bus) (s : State) : exec (.state a) s = .next (respond (zextBus s.q) errOk s) :=
  command_hold s 0 false _ _

theorem exec_value (a : Bus) (s : State) : exec (.value a) s = .next (respond (zextBus s.q) errOk s) := by
  rw [← zextBus_setWidth_valueWidth]
  exact command_hold s 0 false _ _

theorem zextBus_getLsbD_eq_ite (c : Configuration) (q : BitVec c.n) (i : Nat) :
    (zextBus q).getLsbD i = if i < c.n then q.getLsbD i else false := by
  rw [zextBus_getLsbD (n_le_128 c)]
  split
  case isTrue => rfl
  case isFalse hi => exact BitVec.getLsbD_of_ge q i (Nat.not_lt.1 hi)

/-! ## The edge with no command (R80) -/

theorem not_accepts_of_not_cmdValid {s : State} (h : s.pins.cmdValid = false) : s.accepts = false := by
  rw [State.accepts, h, Bool.false_and, Bool.false_and]

end Sys2Proof.StateOpsRules

open Sys2Proof.StateOpsRules

/-! ## The statements -/

/-- Settles O9: in each direction the bit evicted, the bits moved, and the bit inserted. -/
theorem registerShiftMovesEveryBit : Obligations.RegisterShiftMovesEveryBit :=
  fun _ sin q =>
    ⟨fun h => ⟨shiftOut_right h q, fun _ => shiftRegister_right_moved h sin q, shiftRegister_right_inserted h sin q⟩,
      fun h => ⟨shiftOut_left h q, fun _ => shiftRegister_left_moved h sin q, shiftRegister_left_inserted h sin q⟩⟩

/-- Settles O8: every command answers a next state, so none runs into the fault; the register answers by the rows of its
table, and by its reset value where rst = 1. -/
theorem registerCtrlTable : Obligations.RegisterCtrlTable := by
  refine ⟨fun i s hfault => ?_, fun c d sin q => ⟨?_, ?_, ?_, rfl, fun ctrl => ?_⟩⟩
  · obtain ⟨t, ht⟩ := exec_completes i s
    cases ht.symm.trans hfault
  · exact stateRegisterEdge_hold c d sin q
  · exact stateRegisterEdge_load c d sin q
  · exact stateRegisterEdge_shift c d sin q
  · exact ⟨resetValue c, stateRegisterEdge_reset c ctrl d sin q, BitVec.toNat_ofNat c.resetSeed c.n⟩

/-- Settles O17: VALUE holds the register and puts STATE on the bus, which has room for N bits. -/
theorem valueReturnsState : Obligations.ValueReturnsState := by
  intro a s
  have hdata : (zextBus s.q).toNat = s.q.toNat := zextBus_toNat (n_le_128 s.cfg) s.q
  exact ⟨decode_encode (i := .value a) rfl, zextBus s.q, exec_value a s, hdata, hdata.trans_lt s.q.isLt⟩

/-- Settles O18: STATE answers what VALUE does, and the bus holds STATE bit for bit with zeros above. -/
theorem stateReturnsState : Obligations.StateReturnsState :=
  fun a b s => ⟨decode_encode (i := .state a) rfl, (exec_state a s).trans (exec_value b s).symm, zextBus s.q,
    exec_state a s, zextBus_getLsbD_eq_ite s.cfg s.q⟩

/-- Settles O48: with cmd_valid = 0 nothing is accepted, so the edge is an idle one, which leaves the block ready. -/
theorem idleEdgeHoldsState : Obligations.IdleEdgeHoldsState :=
  fun s hs hr hv => ⟨tick s false (silent s), step_idle hr hs (not_accepts_of_not_cmdValid hv), rfl, rfl, rfl, hs,
    (cmdReady_iff _).2 ⟨hs, rfl⟩⟩

end

section
/-! The statements about the feedback (spec/41_feedback.md): what it reads (R103), its two forms (R102), the order of
TAPS (R104), linearity (R105 to R107), and the single step without the tap N (R109). -/

open Sys2Proof Sys2Proof.Machine Sys2Proof.Claims Sys2Proof.Scope Sys2Proof.StateOpsRules

namespace Sys2Proof.FeedbackRules

/-! ## The exclusive-or over a list -/

/-- The exclusive-or of f over a list. -/
def xorOver (f : Nat → Bool) (l : List Nat) : Bool := l.foldr (fun i b => xor (f i) b) false

theorem xorOver_cons (f : Nat → Bool) (i : Nat) (l : List Nat) : xorOver f (i :: l) = xor (f i) (xorOver f l) := rfl

theorem xorOver_concat (f : Nat → Bool) (l : List Nat) (i : Nat) :
    xorOver f (l ++ [i]) = xor (xorOver f l) (f i) := by
  induction l with
  | nil => exact Bool.xor_comm (f i) false
  | cons j l ih => rw [List.cons_append, xorOver_cons, ih, xorOver_cons, Bool.xor_assoc]

theorem xorOver_congr {f g : Nat → Bool} {l : List Nat} (h : ∀ i ∈ l, f i = g i) : xorOver f l = xorOver g l :=
  List.foldr_ext _ _ _ fun i hi b => by rw [h i hi]

theorem xorOver_perm (f : Nat → Bool) {l l' : List Nat} (h : l.Perm l') : xorOver f l = xorOver f l' :=
  have : LeftCommutative fun i b => xor (f i) b := ⟨fun i j => Bool.xor_left_comm (f i) (f j)⟩
  h.foldr_eq false

theorem xorOver_true (l : List Nat) : xorOver (fun _ => true) l = decide (l.length % 2 = 1) := by
  induction l with
  | nil => rfl
  | cons i l ih =>
    rw [xorOver_cons, ih, Bool.true_xor, ← decide_not, List.length_cons]
    exact decide_eq_decide.2 (by omega)

/-! ## The feedback (R102, R105 to R107) -/

theorem fb_eq_xorOver (c : Configuration) (s : BitVec c.n) :
    fb c s = xorOver (fun t => s.getLsbD (idx c t)) c.taps :=
  fb_eq_tapFold c s

theorem tapXor_eq_xorOver (c : Configuration) (s : BitVec c.n) :
    tapXor c s = xorOver (fun t => s.getLsbD (tapPosition c t)) c.taps := rfl

theorem fb_eq_tapXor (c : Configuration) (s : BitVec c.n) : fb c s = tapXor c s := by
  rw [fb_eq_xorOver, tapXor_eq_xorOver]
  simp only [tapPosition_eq_idx]

theorem parityBelow_eq_xorOver {n : Nat} (v : BitVec n) (k : Nat) :
    parityBelow v k = xorOver v.getLsbD (List.range k) := by
  induction k with
  | zero => rfl
  | succ k ih => rw [parityBelow, ih, List.range_succ, xorOver_concat]

theorem fb_eq_maskedXor (c : Configuration) (s : BitVec c.n) :
    fb c s = xorOver (fun i => s.getLsbD i && (tapMask c).getLsbD i) (List.range c.n) := by
  rw [fb, parityBelow_eq_xorOver]
  exact xorOver_congr fun i _ => BitVec.getLsbD_and

theorem fb_zero (c : Configuration) : fb c (0#c.n) = false := by
  rw [fb, BitVec.zero_and, parityBelow_zero]

theorem fb_allOnes (c : Configuration) : fb c (BitVec.allOnes c.n) = decide (c.taps.length % 2 = 1) := by
  rw [fb_eq_xorOver, ← xorOver_true]
  refine xorOver_congr fun t ht => ?_
  rw [BitVec.getLsbD_allOnes, decide_eq_true (idx_lt c ht)]

theorem fb_xor (c : Configuration) (a b : BitVec c.n) : fb c (a ^^^ b) = xor (fb c a) (fb c b) := by
  rw [fb, fb, fb, ← parityBelow_xor]
  refine parityBelow_congr c.n fun i _ => ?_
  simp only [BitVec.getLsbD_and, BitVec.getLsbD_xor, Bool.and_xor_distrib_right]

/-- The feedback of a single bit is TAPMASK at its position. -/
theorem fb_twoPow (c : Configuration) {j : Nat} (hj : j < c.n) :
    fb c (BitVec.twoPow c.n j) = (tapMask c).getLsbD j := by
  rw [fb, BitVec.and_comm, parityBelow_and_twoPow _ _ _ hj, decide_eq_true hj, Bool.true_and]

/-! ## The evicted bit, which is the one that the tap N selects (R108, R109) -/

theorem idx_n_right {c : Configuration} (h : c.dir = .right) : idx c c.n = 0 := by
  rw [idx, h]
  exact Nat.sub_self c.n

theorem idx_n_left {c : Configuration} (h : c.dir = .left) : idx c c.n = c.n - 1 := by
  rw [idx, h]

theorem idx_n_lt (c : Configuration) : idx c c.n < c.n := by
  have hn := one_le_n c
  cases h : c.dir with
  | right => rwa [idx_n_right h]
  | left => rw [idx_n_left h]; omega

theorem eq_n_of_idx_eq {c : Configuration} {t : Nat} (ht : t ∈ c.taps) (h : idx c c.n = idx c t) : t = c.n := by
  have ⟨_, _, _, hrange, _⟩ := c.property
  have ⟨hpos, hle⟩ : 1 ≤ t ∧ t ≤ c.n := hrange t ht
  cases hd : c.dir with
  | right =>
    rw [idx_n_right hd, idx, hd] at h
    exact Nat.le_antisymm hle (Nat.le_of_sub_eq_zero h.symm)
  | left =>
    rw [idx_n_left hd, idx, hd] at h
    exact Nat.sub_one_cancel hpos (one_le_n c) h.symm

theorem tapMask_idx_n {c : Configuration} (h : c.n ∉ c.taps) : (tapMask c).getLsbD (idx c c.n) = false := by
  rw [tapMask_getLsbD c _ (idx_n_lt c), decide_eq_false]
  rintro ⟨t, ht, hidx⟩
  exact h (eq_n_of_idx_eq ht hidx ▸ ht)

/-- STATE with the bit that a single step evicts flipped. -/
def flipEvicted (c : Configuration) (s : BitVec c.n) : BitVec c.n := s ^^^ BitVec.twoPow c.n (idx c c.n)

theorem flipEvicted_getLsbD (c : Configuration) (s : BitVec c.n) (i : Nat) :
    (flipEvicted c s).getLsbD i = xor (s.getLsbD i) (decide (idx c c.n = i)) := by
  rw [flipEvicted, BitVec.getLsbD_xor, BitVec.getLsbD_twoPow, decide_eq_true (idx_n_lt c), Bool.true_and]

/-- Two states with the same bits but for the evicted one. -/
def AgreeOffEvicted (c : Configuration) (x s : BitVec c.n) : Prop :=
  ∀ i < c.n, idx c c.n ≠ i → x.getLsbD i = s.getLsbD i

theorem agreeOffEvicted_iff (c : Configuration) (x s : BitVec c.n) :
    AgreeOffEvicted c x s ↔ x = s ∨ x = flipEvicted c s := by
  constructor
  · intro h
    by_cases hbit : x.getLsbD (idx c c.n) = s.getLsbD (idx c c.n)
    · refine .inl (BitVec.eq_of_getLsbD_eq fun i hi => ?_)
      rcases eq_or_ne (idx c c.n) i with rfl | he
      · exact hbit
      · exact h i hi he
    · refine .inr (BitVec.eq_of_getLsbD_eq fun i hi => ?_)
      rw [flipEvicted_getLsbD]
      rcases eq_or_ne (idx c c.n) i with rfl | he
      · rw [decide_eq_true rfl, Bool.xor_true]
        exact Bool.eq_not.2 hbit
      · rw [decide_eq_false he, Bool.xor_false, h i hi he]
  · rintro (rfl | rfl) i - he
    · rfl
    · rw [flipEvicted_getLsbD, decide_eq_false he, Bool.xor_false]

theorem flipEvicted_ne (c : Configuration) (s : BitVec c.n) : flipEvicted c s ≠ s := by
  intro h
  have hbit := congrArg (BitVec.getLsbD · (idx c c.n)) h
  simp [flipEvicted_getLsbD] at hbit

/-- Without the tap N the feedback does not read the evicted bit. -/
theorem fb_flipEvicted {c : Configuration} (h : c.n ∉ c.taps) (s : BitVec c.n) : fb c (flipEvicted c s) = fb c s := by
  rw [flipEvicted, fb_xor, fb_twoPow c (idx_n_lt c), tapMask_idx_n h, Bool.xor_false]

theorem insertedBit_flipEvicted {c : Configuration} (h : c.n ∉ c.taps) (s : BitVec c.n) :
    insertedBit c (flipEvicted c s) = insertedBit c s := by
  rw [insertedBit, insertedBit, fb_flipEvicted h]

theorem inserted_eq_and_agree_of_shiftRegister_eq {c : Configuration} {a b : Bool} {x s : BitVec c.n}
    (h : shiftRegister c a x = shiftRegister c b s) : a = b ∧ AgreeOffEvicted c x s := by
  have hbit (i : Nat) : (shiftRegister c a x).getLsbD i = (shiftRegister c b s).getLsbD i := by rw [h]
  cases hd : c.dir with
  | right =>
    refine ⟨?_, fun i hi he => ?_⟩
    · rw [← shiftRegister_right_inserted hd a x, hbit, shiftRegister_right_inserted hd]
    · rw [idx_n_right hd] at he
      obtain ⟨i, rfl⟩ := Nat.exists_eq_succ_of_ne_zero he.symm
      rw [← shiftRegister_right_moved hd a x hi, hbit, shiftRegister_right_moved hd b s hi]
  | left =>
    refine ⟨?_, fun i hi he => ?_⟩
    · rw [← shiftRegister_left_inserted hd a x, hbit, shiftRegister_left_inserted hd]
    · rw [idx_n_left hd] at he
      have hi' : i + 1 < c.n := by omega
      rw [← shiftRegister_left_moved hd a x hi', hbit, shiftRegister_left_moved hd b s hi']

theorem shiftRegister_eq_of_agree {c : Configuration} (a : Bool) {x s : BitVec c.n} (h : AgreeOffEvicted c x s) :
    shiftRegister c a x = shiftRegister c a s := by
  apply BitVec.eq_of_getLsbD_eq
  intro i hi
  cases hd : c.dir with
  | right =>
    rw [shiftRegister_right hd, shiftRegister_right hd]
    split
    case isTrue => rfl
    case isFalse he => exact h (i + 1) (by omega) (by rw [idx_n_right hd]; omega)
  | left =>
    rw [shiftRegister_left hd, shiftRegister_left hd]
    split
    case isTrue => rfl
    case isFalse he => rw [h (i - 1) (by omega) (by rw [idx_n_left hd]; omega)]

/-- SHIFT keeps the inserted bit and every bit but the evicted one, and nothing else (R83). -/
theorem shiftRegister_eq_iff (c : Configuration) (a b : Bool) (x s : BitVec c.n) :
    shiftRegister c a x = shiftRegister c b s ↔ a = b ∧ AgreeOffEvicted c x s := by
  constructor
  · exact inserted_eq_and_agree_of_shiftRegister_eq
  · rintro ⟨rfl, h⟩
    exact shiftRegister_eq_of_agree a h

end Sys2Proof.FeedbackRules

open Sys2Proof.FeedbackRules

/-! ## The statements -/

/-- Settles O5: over the taps, whose positions are distinct, and over all bits under TAPMASK. -/
theorem feedbackIsXorOverTaps : Obligations.FeedbackIsXorOverTaps :=
  fun c s => ⟨fb_eq_tapXor c s, fb_eq_maskedXor c s⟩

/-- Settles O4: a tap's position lies below N, and the exclusive-or over the taps reads the bits at their positions
alone. -/
theorem feedbackReadsOnlyTappedBits : Obligations.FeedbackReadsOnlyTappedBits := by
  refine fun c => ⟨fun t ht => ?_, fun a b h => ?_⟩
  · rw [tapPosition_eq_idx]
    exact idx_lt c ht
  · rw [fb_eq_tapXor, fb_eq_tapXor]
    exact xorOver_congr h

/-- Settles O6: a tap's position does not depend on the list it stands in, and an exclusive-or over a list does not
depend on the list's order. -/
theorem feedbackIgnoresTapOrder : Obligations.FeedbackIgnoresTapOrder := by
  intro c taps' hperm h s
  rw [fb_eq_xorOver, fb_eq_xorOver]
  exact xorOver_perm (fun t => s.getLsbD (idx c t)) hperm

/-- Settles O7: no bit is set in 0, every tapped bit is set in 2^N - 1, and the parity of an exclusive-or is the
exclusive-or of the parities. -/
theorem feedbackIsLinear : Obligations.FeedbackIsLinear :=
  fun c => ⟨fb_zero c, fb_allOnes c, fb_xor c⟩

/-- Settles O30: the other state is the one with the evicted bit flipped. Without the tap N both have the same inserted
bit, and a shift forgets the evicted bit and no other. -/
theorem stepIsTwoToOneWithoutTapN : Obligations.StepIsTwoToOneWithoutTapN := by
  intro c hn s
  refine ⟨flipEvicted c s, flipEvicted_ne c s, fun x => ?_⟩
  rw [stepC_fst, stepC_fst, shiftRegister_eq_iff, agreeOffEvicted_iff]
  refine and_iff_right_of_imp ?_
  rintro (rfl | rfl)
  · rfl
  · exact insertedBit_flipEvicted hn s

end

section
/-! The statements about stepping (spec/42_stepping.md): STEP (R117 to R124) and bulk stepping (R125 to R136). -/

open Sys2Proof Sys2Proof.Machine Sys2Proof.Safety Sys2Proof.Claims Sys2Proof.MemoryRules Sys2Proof.EncodingRules
  Sys2Proof.StateOpsRules Sys2Proof.FeedbackRules

namespace Sys2Proof.SteppingRules

/-! ## The single step of the plain variants (R117, R118, R123, R124) -/

/-- Only the LEFT register has an inverted variant (R11). -/
theorem invert_of_dir_right {c : Configuration} (h : c.dir = .right) : c.invert = false := by
  cases hi : c.invert with
  | false => rfl
  | true => cases h.symm.trans (dir_of_invert hi)

theorem stepC_fst_plain {c : Configuration} (h : c.invert = false) (s : BitVec c.n) :
    (stepC c s).1 = shiftRegister c (fb c s) s := by
  rw [stepC_fst, insertedBit, h, if_neg Bool.false_ne_true]

theorem stepC_snd_plain {c : Configuration} (h : c.invert = false) (s : BitVec c.n) :
    (stepC c s).2 = shiftOut c s := by
  rw [stepC_snd, outputBit, h, if_neg Bool.false_ne_true]

theorem shiftRegister_zero (c : Configuration) : shiftRegister c false (0#c.n) = 0#c.n := by
  refine BitVec.eq_of_getLsbD_eq fun i _ => ?_
  cases h : c.dir with
  | right => rw [shiftRegister_right h, BitVec.getLsbD_zero, BitVec.getLsbD_zero, ite_self]
  | left => rw [shiftRegister_left h, BitVec.getLsbD_zero, BitVec.getLsbD_zero, Bool.and_false, ite_self]

theorem shiftOut_zero (c : Configuration) : shiftOut c (0#c.n) = false := by
  cases h : c.dir with
  | right => rw [shiftOut_right h, BitVec.getLsbD_zero]
  | left => rw [shiftOut_left h, BitVec.getLsbD_zero]

/-- The zero state is a fixed point with output 0 (R124). -/
theorem stepC_zero {c : Configuration} (h : c.invert = false) : stepC c (0#c.n) = (0#c.n, false) := by
  refine Prod.ext ?_ ?_
  · rw [stepC_fst_plain h, fb_zero, shiftRegister_zero]
  · rw [stepC_snd_plain h, shiftOut_zero]

theorem stateAfterSteps_zero {c : Configuration} (h : c.invert = false) (k : Nat) :
    stateAfterSteps c k (0#c.n) = 0#c.n :=
  Function.iterate_fixed (congrArg Prod.fst (stepC_zero h)) k

/-- The RIGHT step on numbers, as R123 writes it: y may be any number whose lowest bit is the feedback, because the
reduction mod 2^w drops its other bits. -/
theorem stepC_right_toNat {c : Configuration} (h : c.dir = .right) (s : BitVec c.n) {w y : Nat} (hw : c.n = w)
    (hy : y.testBit 0 = fb c s) : (stepC c s).1.toNat = ((s.toNat >>> 1) ||| (y <<< (w - 1))) % 2 ^ w := by
  subst hw
  have hn := one_le_n c
  refine Nat.eq_of_testBit_eq fun i => ?_
  rw [BitVec.testBit_toNat, stepC_fst_plain (invert_of_dir_right h), shiftRegister_right h, Nat.testBit_mod_two_pow,
    Nat.testBit_or, Nat.testBit_shiftRight, Nat.testBit_shiftLeft, BitVec.testBit_toNat, Nat.add_comm 1 i]
  rcases Nat.lt_trichotomy (i + 1) c.n with hi | hi | hi
  · have hbelow : ¬ c.n - 1 ≤ i := by omega
    simp [hi.ne, Nat.lt_of_succ_lt hi, hbelow]
  · have htop : i = c.n - 1 := by omega
    simp [hi, hy, ← htop, Nat.lt_of_succ_le hi.le]
  · simp [hi.ne', Nat.not_lt.2 (Nat.le_of_lt_succ hi), BitVec.getLsbD_of_ge s (i + 1) hi.le]

/-- The feedback of a RIGHT register with taps 16, 14, 13 and 11 (R123). -/
theorem fb_taps_16_14_13_11 {c : Configuration} (hd : c.dir = .right) (ht : c.taps = [16, 14, 13, 11])
    (s : BitVec c.n) : (s.toNat >>> (c.n - 16) ^^^ s.toNat >>> (c.n - 14) ^^^ s.toNat >>> (c.n - 13) ^^^
      s.toNat >>> (c.n - 11)).testBit 0 = fb c s := by
  have hidx (t : Nat) : idx c t = c.n - t := by rw [idx, hd]
  simp only [fb_eq_tapFold, ht, hidx, List.foldr_cons, List.foldr_nil, Bool.xor_false, Nat.testBit_xor,
    Nat.testBit_shiftRight, BitVec.testBit_toNat, Nat.add_zero, Bool.xor_assoc]

/-! ## The first N outputs of the plain variants (R131) -/

/-- Under RIGHT, k steps bring bit i + k to position i. -/
theorem stateAfter_right_moved {c : Configuration} (h : c.dir = .right) (k : Nat) (s : BitVec c.n) {i : Nat}
    (hi : i + k < c.n) : (stateAfter c k s).getLsbD i = s.getLsbD (i + k) := by
  induction k generalizing s with
  | zero => rfl
  | succ k ih =>
    rw [stateAfter, ih _ (by omega), stepC_fst]
    exact shiftRegister_right_moved h _ s hi

/-- Under LEFT, k steps bring bit i to position i + k. -/
theorem stateAfter_left_moved {c : Configuration} (h : c.dir = .left) (k : Nat) (s : BitVec c.n) {i : Nat}
    (hi : i + k < c.n) : (stateAfter c k s).getLsbD (i + k) = s.getLsbD i := by
  induction k generalizing s i with
  | zero => rfl
  | succ k ih =>
    have hpos : i + (k + 1) = i + 1 + k := by omega
    rw [stateAfter, hpos, ih _ (by omega), stepC_fst, shiftRegister_left_moved h _ _ (by omega)]

theorem outputAt_right {c : Configuration} (h : c.dir = .right) (s : BitVec c.n) {i : Nat} (hi : i < c.n) :
    outputAt c i s = s.getLsbD i := by
  rw [outputAt, stepC_snd_plain (invert_of_dir_right h), shiftOut_right h, stateAfter_right_moved h i s (by omega),
    Nat.zero_add]

theorem outputAt_left {c : Configuration} (h : c.dir = .left) (hp : c.invert = false) (s : BitVec c.n) {i : Nat}
    (hi : i < c.n) : outputAt c i s = s.getLsbD (c.n - 1 - i) := by
  have htop : c.n - 1 - i + i = c.n - 1 := Nat.sub_add_cancel (by omega)
  have hmoved := stateAfter_left_moved h i s (i := c.n - 1 - i) (by omega)
  rw [htop] at hmoved
  rw [outputAt, stepC_snd_plain hp, shiftOut_left h, hmoved]

/-! ## STEP and STEPN (R121, R128 to R130) -/

theorem zextBit_eq_ite (b : Bool) : zextBit 128 b = if b then 1 else 0 := by cases b <;> rfl

/-- One bulk step packs its output at bit 0. -/
theorem bulk_one_snd (c : Configuration) (s : BitVec c.n) : (bulk c 1 s).2 = zextBit 128 (stepC c s).2 :=
  BitVec.zero_or.trans (BitVec.shiftLeft_zero _)

/-- The response of a single step with this output. -/
def stepResponse (o : Bool) : Response := ⟨if o then 1 else 0, errOk⟩

theorem exec_step (a : Bus) (s : State) :
    exec (.step a) s =
      .next (respond (if (stepC s.cfg s.q).2 then 1 else 0) errOk { s with q := (stepC s.cfg s.q).1 }) := by
  rw [← zextBit_eq_ite, stepC_fst, stepC_snd]
  exact command_shift s 0 _ _ _

theorem exec_stepn {count : Bus} (h : count.toNat ≤ 128) (s : State) :
    exec (.stepn count) s =
      .next (respond (bulk s.cfg count.toNat s.q).2 errOk { s with q := stateAfter s.cfg count.toNat s.q }) := by
  rw [← bulk_fst]
  exact execStepn_inRange h s

/-- STEPN with its count given as a number. -/
theorem exec_stepn_ofNat {k : Nat} (h : k ≤ 128) (s : State) :
    exec (.stepn (BitVec.ofNat 128 k)) s =
      .next (respond (bulk s.cfg k s.q).2 errOk { s with q := stateAfter s.cfg k s.q }) := by
  have hk : (BitVec.ofNat 128 k).toNat = k := Nat.mod_eq_of_lt (by omega)
  rw [exec_stepn (hk.trans_le h), hk]

theorem outputOfStep_eq (c : Configuration) (k : Nat) (s : BitVec c.n) : outputOfStep c k s = outputAt c k s := by
  rw [outputOfStep, stateAfterSteps_eq, outputAt]

theorem bulk_snd_getLsbD_outputOfStep (c : Configuration) {k : Nat} (h : k ≤ 128) (s : BitVec c.n) (i : Nat) :
    (bulk c k s).2.getLsbD i = (decide (i < k) && outputOfStep c i s) := by
  rw [bulk_snd_getLsbD c k s h, outputOfStep_eq]

/-- k STEP commands reach the state after k single steps, and respond with their outputs in order (R132). -/
theorem perform_steps (a : Bus) (k : Nat) (s : State) :
    ∃ u, perform (List.replicate k (.step a)) s =
        some ((List.range k).map fun i => stepResponse (outputAt s.cfg i s.q), u) ∧
      u.cfg = s.cfg ∧ u.q.toNat = (stateAfter s.cfg k s.q).toNat := by
  induction k generalizing s with
  | zero => exact ⟨s, rfl, rfl, rfl⟩
  | succ k ih =>
    obtain ⟨u, hu, hc, hq⟩ := ih (respond (if (stepC s.cfg s.q).2 then 1 else 0) errOk
      { s with q := (stepC s.cfg s.q).1 })
    refine ⟨u, ?_, hc, hq⟩
    rw [List.replicate_succ, perform_cons (exec_step a s), hu, List.range_succ_eq_map, List.map_cons, List.map_map]
    rfl

/-! ## NEXT16, NEXT32 and NEXT64 (R134 to R136) -/

/-- Narrowing to k bits loses nothing of the outputs of k steps. -/
theorem narrow_bulk_snd (c : Configuration) {k : Nat} (h : k ≤ 128) (s : BitVec c.n) :
    narrow k (bulk c k s).2 = (bulk c k s).2 := by
  refine BitVec.eq_of_getLsbD_eq fun i _ => ?_
  rw [narrow_getLsbD k h, bulk_snd_getLsbD c k s h, ← Bool.and_assoc, Bool.and_self]

/-- The command shared by NEXT16, NEXT32 and NEXT64 is STEPN of their width. -/
theorem command_narrow_bulk {k : Nat} (h : k ≤ 128) (s : State) :
    command s ctrlLoad (bulk s.cfg k s.q).1 false (narrow k (bulk s.cfg k s.q).2) errOk =
      exec (.stepn (BitVec.ofNat 128 k)) s := by
  rw [command_load, narrow_bulk_snd s.cfg h, bulk_fst, exec_stepn_ofNat h]

end Sys2Proof.SteppingRules

open Sys2Proof.SteppingRules

/-! ## The statements -/

/-- Settles O34: the loop of STEPN in closed form. -/
theorem stepnPacksOutputs : Obligations.StepnPacksOutputs := by
  intro count s h
  refine ⟨(bulk s.cfg count.toNat s.q).2, ?_, bulk_snd_getLsbD_outputOfStep s.cfg h s.q⟩
  rw [stateAfterSteps_eq]
  exact exec_stepn h s

/-- Settles O22: the plain step shifts RIGHT with the feedback inserted. -/
theorem stepRight : Obligations.StepRight := by
  intro a s hd
  have hp := invert_of_dir_right hd
  refine ⟨(stepC s.cfg s.q).1, ?_, fun i hi => ?_, ?_⟩
  · rw [← shiftOut_right hd, ← stepC_snd_plain hp]
    exact exec_step a s
  · rw [stepC_fst, shiftRegister_right_moved hd _ _ hi]
  · rw [stepC_fst_plain hp, shiftRegister_right_inserted hd, fb_eq_tapXor]

/-- Settles O23: the plain step shifts LEFT with the feedback inserted. -/
theorem stepLeft : Obligations.StepLeft := by
  intro a s hd hp
  refine ⟨(stepC s.cfg s.q).1, ?_, fun i hi => ?_, ?_⟩
  · rw [← shiftOut_left hd, ← stepC_snd_plain hp]
    exact exec_step a s
  · rw [stepC_fst, shiftRegister_left_moved hd _ _ hi]
  · rw [stepC_fst_plain hp, shiftRegister_left_inserted hd, fb_eq_tapXor]

/-- Settles O25: the one SHIFT that STEP drives is the single step, and a loop of one step packs its output at bit 0. -/
theorem stepIsStepC : Obligations.StepIsStepC := by
  refine fun a s => ⟨decode_encode (i := .step a) rfl, ?_, exec_step a s⟩
  have hone : BitVec.toNat (1 : Bus) = 1 := rfl
  rw [exec_stepn (count := 1) (by decide) s, hone, exec_step, bulk_one_snd, zextBit_eq_ite]
  rfl

/-- Settles O26: 0 is a fixed point of the plain step, whose output there is 0. -/
theorem plainZeroIsAbsorbing : Obligations.PlainZeroIsAbsorbing := by
  refine fun c k h => ⟨stepC_zero h, stateAfterSteps_zero h k, ?_⟩
  rw [outputOfStep, stateAfterSteps_zero h, stepC_zero h]

/-- Settles O32: the taps select the bits 0, 2, 3, 5 of the 16-bit register and the bits 16, 18, 19, 21 of the 32-bit
one, and the RIGHT step inserts their exclusive-or. -/
theorem referenceRecurrences : Obligations.ReferenceRecurrences := by
  intro c hd ht s
  have hfb := fb_taps_16_14_13_11 hd ht s
  refine ⟨fun hn => stepC_right_toNat (w := 16) hd s hn ?_, fun hn => stepC_right_toNat (w := 32) hd s hn ?_⟩
  · simpa only [hn] using hfb
  · simpa only [hn] using hfb

/-- Settles O36: the evicted bits of the first N steps are the bits of STATE, from the lowest under RIGHT and from the
highest under LEFT. -/
theorem stepnOfWidthReadsState : Obligations.StepnOfWidthReadsState := by
  intro s t hp hx
  have hn := n_le_128 s.cfg
  obtain rfl := Host.Outcome.next.inj ((exec_stepn_ofNat hn s).symm.trans hx)
  refine ⟨fun hd => ?_, fun hd i => ?_⟩
  · have hdata : (bulk s.cfg s.cfg.n s.q).2 = zextBus s.q := by
      refine BitVec.eq_of_getLsbD_eq fun i _ => ?_
      rw [bulk_snd_getLsbD _ _ _ hn, zextBus_getLsbD hn]
      by_cases hi : i < s.cfg.n
      · rw [decide_eq_true hi, Bool.true_and, outputAt_right hd s.q hi]
      · rw [decide_eq_false hi, Bool.false_and, BitVec.getLsbD_of_ge s.q i (Nat.not_lt.1 hi)]
    rw [respond_rspData, hdata, zextBus_toNat hn]
  · rw [respond_rspData, bulk_snd_getLsbD _ _ _ hn]
    by_cases hi : i < s.cfg.n
    · rw [outputAt_left hd hp s.q hi]
    · rw [decide_eq_false hi, Bool.false_and, Bool.false_and]

/-- Settles O37: the responses of the STEP commands are the outputs that STEPN packs. -/
theorem stepnEqualsSteps : Obligations.StepnEqualsSteps := by
  intro count a s h
  obtain ⟨u, hu, hc, hq⟩ := perform_steps a count.toNat s
  refine ⟨_, u, _, hu, exec_stepn h s, by rw [List.length_map, List.length_range], hc, hq, fun i hi => ?_⟩
  have hlt : i < count.toNat := by rwa [List.length_map, List.length_range] at hi
  rw [List.getElem_map, List.getElem_range, respond_rspData, bulk_snd_getLsbD _ _ _ h, decide_eq_true hlt,
    Bool.true_and]
  exact ⟨rfl, rfl⟩

/-- Settles O38: a steps and then b steps are a + b steps, and step i of the second run is step a + i of the whole. -/
theorem stepnComposes : Obligations.StepnComposes := by
  intro a b s h
  have ha : a ≤ 128 := by omega
  have hb : b ≤ 128 := by omega
  refine ⟨_, _, _, exec_stepn_ofNat ha s, exec_stepn_ofNat hb _, exec_stepn_ofNat h s, rfl, ?_, fun i hi => ?_⟩
  · exact congrArg BitVec.toNat (stateAfter_add s.cfg a b s.q).symm
  · have hai : a + i < a + b := by omega
    rw [respond_rspData, respond_rspData, bulk_snd_getLsbD _ _ _ hb, bulk_snd_getLsbD _ _ _ h, decide_eq_true hi,
      decide_eq_true hai, outputAt_add]
    rfl

/-- Settles O39: the three commands drive what STEPN of their width drives, and that many outputs fit the width. -/
theorem nextIsStepn : Obligations.NextIsStepn := by
  intro a s
  refine ⟨decode_encode (i := .next16 a) rfl, decode_encode (i := .next32 a) rfl, decode_encode (i := .next64 a) rfl,
    fun p hp => ?_⟩
  have hcommand : p.2 ≤ 128 ∧ exec p.1 s = exec (.stepn (BitVec.ofNat 128 p.2)) s := by
    simp only [List.mem_cons, List.not_mem_nil, or_false] at hp
    rcases hp with rfl | rfl | rfl
    · exact ⟨by norm_num, command_narrow_bulk (k := 16) (by decide) s⟩
    · exact ⟨by norm_num, command_narrow_bulk (k := 32) (by decide) s⟩
    · exact ⟨by norm_num, command_narrow_bulk (k := 64) (by decide) s⟩
  obtain ⟨hwidth, hx⟩ := hcommand
  refine ⟨hx, (bulk s.cfg p.2 s.q).2, ?_, bulk_snd_getLsbD_outputOfStep s.cfg hwidth s.q⟩
  rw [hx, stateAfterSteps_eq]
  exact exec_stepn_ofNat hwidth s

/-- Settles O35: no single step is performed and no output is packed. -/
theorem stepnZero : Obligations.StepnZero := fun s => exec_stepn_ofNat (k := 0) (by decide) s

end

section
/-! The statements about the inverted variant (spec/43_inverted.md): its step (R151, R152), its values at 0, at N = 1
and at 2^N - 1 (R156, R157, R159), the bijection (R160), the complement relation (R161), and the reference cycles (R158). -/

open Sys2Proof Sys2Proof.Machine Sys2Proof.Claims Sys2Proof.StateOpsRules Sys2Proof.FeedbackRules
  Sys2Proof.SteppingRules

namespace Sys2Proof.InvertedRules

/-! ## The inverted step (R151, R152) -/

theorem stepC_fst_inverted {c : Configuration} (h : c.invert = true) (s : BitVec c.n) :
    (stepC c s).1 = shiftRegister c (!fb c s) s := by
  rw [stepC_fst, insertedBit, if_pos h]

theorem stepC_snd_inverted {c : Configuration} (h : c.invert = true) (s : BitVec c.n) :
    (stepC c s).2 = !fb c s := by
  rw [stepC_snd, outputBit, if_pos h]

theorem stepC_fst_getLsbD_zero_inverted {c : Configuration} (h : c.invert = true) (s : BitVec c.n) :
    (stepC c s).1.getLsbD 0 = !fb c s := by
  rw [stepC_fst_inverted h, shiftRegister_left_inserted (dir_of_invert h)]

/-- The output is STATE[0] of the new state (R152). -/
theorem stepC_snd_eq_getLsbD_zero_inverted {c : Configuration} (h : c.invert = true) (s : BitVec c.n) :
    (stepC c s).2 = (stepC c s).1.getLsbD 0 := by
  rw [stepC_snd_inverted h, stepC_fst_getLsbD_zero_inverted h]

/-! ## The zero state, and width 1 (R156, R157) -/

theorem shiftRegister_left_true_zero {c : Configuration} (h : c.dir = .left) :
    shiftRegister c true (0#c.n) = 1#c.n := by
  refine BitVec.eq_of_getLsbD_eq fun i hi => ?_
  rw [shiftRegister_left h, BitVec.getLsbD_zero, Bool.and_false, BitVec.getLsbD_one]
  by_cases hi0 : i = 0
  · rw [if_pos hi0, decide_eq_true (Nat.zero_lt_of_lt hi), decide_eq_true hi0, Bool.true_and]
  · rw [if_neg hi0, decide_eq_false hi0, Bool.and_false]

theorem stepC_zero_inverted {c : Configuration} (h : c.invert = true) : stepC c (0#c.n) = (1#c.n, true) := by
  refine Prod.ext ?_ ?_
  · rw [stepC_fst_inverted h, fb_zero, Bool.not_false, shiftRegister_left_true_zero (dir_of_invert h)]
  · rw [stepC_snd_inverted h, fb_zero, Bool.not_false]

/-- The only tap set of a one-bit register. -/
theorem taps_of_n_eq_one {c : Configuration} (h : c.n = 1) : c.taps = [1] := by
  obtain ⟨_, _, hne, hrange, (hnodup : c.taps.Nodup), _⟩ := c.property
  have hone : ∀ t ∈ c.taps, t = 1 := fun t ht => Nat.le_antisymm ((hrange t ht).2.trans h.le) (hrange t ht).1
  have hrep : c.taps = List.replicate c.taps.length 1 := List.eq_replicate_of_mem hone
  rw [hrep, List.nodup_replicate] at hnodup
  rw [hrep, Nat.le_antisymm hnodup (List.length_pos_iff.2 hne), List.replicate_one]

theorem fb_of_n_eq_one {c : Configuration} (h : c.n = 1) (s : BitVec c.n) : fb c s = s.getLsbD 0 := by
  have htaps := taps_of_n_eq_one h
  have hlt : idx c 1 < c.n := idx_lt c (htaps ▸ List.mem_singleton_self 1)
  have hidx : idx c 1 = 0 := by omega
  rw [fb_eq_xorOver, htaps, xorOver_cons, hidx]
  exact Bool.xor_false _

/-- The one bit of the next state is the inserted one. -/
theorem stepC_fst_inverted_of_n_eq_one {c : Configuration} (h : c.invert = true) (hn : c.n = 1) (s : BitVec c.n) :
    (stepC c s).1 = ~~~s := by
  refine BitVec.eq_of_getLsbD_eq fun i hi => ?_
  obtain rfl : i = 0 := by omega
  rw [stepC_fst_getLsbD_zero_inverted h, fb_of_n_eq_one hn, BitVec.getLsbD_not, decide_eq_true hi, Bool.true_and]

/-! ## The complement (R159, R161) -/

theorem shiftRegister_not (c : Configuration) (b : Bool) (q : BitVec c.n) :
    shiftRegister c (!b) (~~~q) = ~~~shiftRegister c b q := by
  refine BitVec.eq_of_getLsbD_eq fun i hi => ?_
  rw [BitVec.getLsbD_not, decide_eq_true hi, Bool.true_and]
  cases hd : c.dir with
  | right =>
    rw [shiftRegister_right hd, shiftRegister_right hd]
    split
    case isTrue => rfl
    case isFalse he => rw [BitVec.getLsbD_not, decide_eq_true (by omega), Bool.true_and]
  | left =>
    rw [shiftRegister_left hd, shiftRegister_left hd]
    split
    case isTrue => rfl
    case isFalse he =>
      rw [BitVec.getLsbD_not, decide_eq_true hi, Bool.true_and, Bool.true_and, decide_eq_true (by omega), Bool.true_and]

/-- Complementing the state flips the feedback once for each tap (R106, R107). -/
theorem fb_not (c : Configuration) (s : BitVec c.n) :
    fb c (~~~s) = xor (fb c s) (decide (c.taps.length % 2 = 1)) := by
  rw [← BitVec.xor_allOnes, fb_xor, fb_allOnes]

theorem stepC_fst_not_inverted {c : Configuration} (h : c.invert = true) (s : BitVec c.n) :
    (stepC c (~~~s)).1 = ~~~shiftRegister c (xor (fb c s) (decide (c.taps.length % 2 = 1))) s := by
  rw [stepC_fst_inverted h, fb_not, shiftRegister_not]

theorem stepC_fst_allOnes_inverted {c : Configuration} (h : c.invert = true) :
    (stepC c (BitVec.allOnes c.n)).1 = ~~~shiftRegister c (decide (c.taps.length % 2 = 1)) (0#c.n) := by
  rw [← BitVec.not_zero, stepC_fst_not_inverted h, fb_zero, Bool.false_xor]

theorem stepC_snd_allOnes_inverted {c : Configuration} (h : c.invert = true) :
    (stepC c (BitVec.allOnes c.n)).2 = !decide (c.taps.length % 2 = 1) := by
  rw [stepC_snd_inverted h, fb_allOnes]

/-- One step of the relation of R161. -/
theorem stepC_fst_not_of_even {c : Configuration} (h : c.invert = true) (heven : c.taps.length % 2 = 0)
    (s : BitVec c.n) : (stepC c (~~~s)).1 = ~~~(stepC (plain c) s).1 := by
  have hodd : ¬ c.taps.length % 2 = 1 := by omega
  rw [stepC_fst_not_inverted h, decide_eq_false hodd, Bool.xor_false, stepC_fst_plain (c := plain c) rfl]
  rfl

/-! ## The step with the tap N (R108, R160) -/

theorem tapMask_idx_n_of_mem {c : Configuration} (h : c.n ∈ c.taps) : (tapMask c).getLsbD (idx c c.n) = true := by
  rw [tapMask_getLsbD c _ (idx_n_lt c), decide_eq_true ⟨c.n, h, rfl⟩]

theorem insertedBit_flipEvicted_of_mem {c : Configuration} (h : c.n ∈ c.taps) (s : BitVec c.n) :
    insertedBit c (flipEvicted c s) = !insertedBit c s := by
  have hfb : fb c (flipEvicted c s) = !fb c s := by
    rw [flipEvicted, fb_xor, fb_twoPow c (idx_n_lt c), tapMask_idx_n_of_mem h, Bool.xor_true]
  rw [insertedBit, insertedBit, hfb, apply_ite Bool.not]

/-- Two states with one successor differ at most in the evicted bit, and with the tap N that bit would show in the
inserted one. -/
theorem stepC_fst_injective {c : Configuration} (h : c.n ∈ c.taps) :
    Function.Injective fun s : BitVec c.n => (stepC c s).1 := by
  intro x s heq
  simp only [stepC_fst, shiftRegister_eq_iff, agreeOffEvicted_iff] at heq
  obtain ⟨hins, rfl | rfl⟩ := heq
  · rfl
  · rw [insertedBit_flipEvicted_of_mem h] at hins
    exact absurd hins (Bool.not_ne_self _)

/-! ## The reference cycles (R158) -/

/-- The inverted step on numbers, R151's pseudocode. -/
theorem stepC_toNat_inverted {c : Configuration} (h : c.invert = true) (s : BitVec c.n) :
    (stepC c s).1.toNat = ((s.toNat <<< 1) ||| (!fb c s).toNat) % 2 ^ c.n := by
  have hbit : (!fb c s).toNat < 2 ^ c.n :=
    (Bool.toNat_lt _).trans_le (Nat.pow_le_pow_right Nat.two_pos (one_le_n c))
  rw [stepC_fst_inverted h, shiftRegister, dir_of_invert h, BitVec.toNat_or, BitVec.toNat_shiftLeft,
    zextBit_toNat _ (one_le_n c), Nat.or_mod_two_pow, Nat.mod_eq_of_lt hbit]

/-- The inverted step of the 8-bit register with taps 8 and 5, on numbers. -/
def referenceNext (x : Nat) : Nat := ((x <<< 1) ||| (!xor (x.testBit 7) (x.testBit 4)).toNat) % 2 ^ 8

theorem stepC_toNat_reference {c : Configuration} (hi : c.invert = true) (ht : c.taps = [8, 5]) (hn : c.n = 8)
    (s : BitVec c.n) : (stepC c s).1.toNat = referenceNext s.toNat := by
  have hidx (t : Nat) : idx c t = t - 1 := by rw [idx, dir_of_invert hi]
  have hfb : fb c s = xor (s.toNat.testBit 7) (s.toNat.testBit 4) := by
    simp only [fb_eq_tapFold, ht, hidx, List.foldr_cons, List.foldr_nil, Bool.xor_false, BitVec.testBit_toNat]
  have hpow : 2 ^ c.n = 2 ^ 8 := by rw [hn]
  rw [stepC_toNat_inverted hi, hfb, hpow, referenceNext]

theorem stateAfterSteps_toNat_reference {c : Configuration} (hi : c.invert = true) (ht : c.taps = [8, 5])
    (hn : c.n = 8) (k : Nat) (s : BitVec c.n) :
    (stateAfterSteps c k s).toNat = referenceNext^[k] s.toNat :=
  have hsemi : Function.Semiconj BitVec.toNat (fun x : BitVec c.n => (stepC c x).1) referenceNext :=
    stepC_toNat_reference hi ht hn
  hsemi.iterate_right k s

/-- The length of a cycle, from one return and no earlier one at a divisor of it. -/
theorem minimalPeriod_eq_of_properDivisors {α : Type} {f : α → α} {x : α} {p : Nat} (hp : 0 < p)
    (hper : f^[p] x = x) (hdiv : ∀ d ∈ p.properDivisors, f^[d] x ≠ x) : Function.minimalPeriod f x = p := by
  have hdvd : Function.minimalPeriod f x ∣ p := Function.IsPeriodicPt.minimalPeriod_dvd hper
  refine (Nat.le_of_dvd hp hdvd).eq_of_not_lt fun hlt => ?_
  exact hdiv _ (Nat.mem_properDivisors.2 ⟨hdvd, hlt⟩) Function.iterate_minimalPeriod

/-- Along the cycle from 0, every 31st state. -/
theorem referenceNext_iterate_31 :
    referenceNext^[31] 0 = 185 ∧ referenceNext^[31] 185 = 114 ∧ referenceNext^[31] 114 = 46 ∧
      referenceNext^[31] 46 = 203 ∧ referenceNext^[31] 203 = 229 ∧ referenceNext^[31] 229 = 151 ∧
      referenceNext^[31] 151 = 0 := by decide

theorem referenceNext_iterate_217_zero : referenceNext^[217] 0 = 0 := by
  obtain ⟨h1, h2, h3, h4, h5, h6, h7⟩ := referenceNext_iterate_31
  rw [Function.iterate_mul referenceNext 31 7]
  simp only [Function.iterate_succ_apply referenceNext^[31], Function.iterate_zero_apply, h1, h2, h3, h4, h5, h6, h7]

theorem minimalPeriod_referenceNext_zero : Function.minimalPeriod referenceNext 0 = 217 :=
  minimalPeriod_eq_of_properDivisors (by decide) referenceNext_iterate_217_zero (by decide)

theorem minimalPeriod_referenceNext_six : Function.minimalPeriod referenceNext 6 = 31 :=
  minimalPeriod_eq_of_properDivisors (by decide) (by decide) (by decide)

theorem minimalPeriod_referenceNext_twentySix : Function.minimalPeriod referenceNext 26 = 7 :=
  minimalPeriod_eq_of_properDivisors (by decide) (by decide) (by decide)

theorem stateAfterSteps_eq_self_iff_reference {c : Configuration} (hi : c.invert = true) (ht : c.taps = [8, 5])
    (hn : c.n = 8) {x p : Nat} (hx : x < 2 ^ 8) (hp : Function.minimalPeriod referenceNext x = p) (k : Nat) :
    stateAfterSteps c k (BitVec.ofNat c.n x) = BitVec.ofNat c.n x ↔ p ∣ k := by
  have hseed : (BitVec.ofNat c.n x).toNat = x := by rw [BitVec.toNat_ofNat, hn, Nat.mod_eq_of_lt hx]
  rw [← BitVec.toNat_inj, stateAfterSteps_toNat_reference hi ht hn, hseed, ← hp]
  exact Function.isPeriodicPt_iff_minimalPeriod_dvd

end Sys2Proof.InvertedRules

open Sys2Proof.InvertedRules

/-! ## The statements -/

/-- Settles O24: the inverted step shifts LEFT with the negated feedback inserted, and outputs that bit. -/
theorem stepInverted : Obligations.StepInverted := by
  intro a s h
  refine ⟨(stepC s.cfg s.q).1, ?_, fun i hi => ?_, ?_⟩
  · rw [← stepC_snd_eq_getLsbD_zero_inverted h]
    exact exec_step a s
  · rw [stepC_fst, shiftRegister_left_moved (dir_of_invert h) _ _ hi]
  · rw [stepC_fst_getLsbD_zero_inverted h, fb_eq_tapXor]

/-- Settles O27: the feedback of 0 is 0, and that of a one-bit register is its bit. -/
theorem invertedStepLeavesZero : Obligations.InvertedStepLeavesZero := by
  refine fun c h => ⟨stepC_zero_inverted h, fun hn s => ⟨stepC_fst_inverted_of_n_eq_one h hn s, ?_⟩⟩
  rw [stepC_snd_eq_getLsbD_zero_inverted h, stepC_fst_inverted_of_n_eq_one h hn]

/-- Settles O28: the feedback of all ones is the parity of the number of taps, and the shift of all ones is the
complement of the shift of 0. -/
theorem invertedAllOnes : Obligations.InvertedAllOnes := by
  refine fun c h => ⟨fun heven => ?_, fun hodd => ?_⟩
  · have hpar : decide (c.taps.length % 2 = 1) = false := decide_eq_false (by omega)
    refine Prod.ext ?_ ?_
    · rw [stepC_fst_allOnes_inverted h, hpar, shiftRegister_zero, BitVec.not_zero]
    · rw [stepC_snd_allOnes_inverted h, hpar, Bool.not_false]
  · have hpar : decide (c.taps.length % 2 = 1) = true := decide_eq_true hodd
    refine ⟨?_, ?_⟩
    · rw [stepC_fst_allOnes_inverted h, hpar, shiftRegister_left_true_zero (dir_of_invert h), BitVec.toNat_not,
        BitVec.toNat_ofNat, Nat.mod_eq_of_lt (Nat.one_lt_two_pow (Nat.ne_of_gt (one_le_n c))), Nat.sub_sub]
    · rw [stepC_snd_allOnes_inverted h, hpar, Bool.not_true]

/-- Settles O29: the step is injective, and there are finitely many states. -/
theorem stepIsBijectiveWithTapN : Obligations.StepIsBijectiveWithTapN :=
  fun _ h => Finite.injective_iff_bijective.1 (stepC_fst_injective h)

/-- Settles O31: the complement takes each plain step to an inverted one, so it does so for k of them. -/
theorem invertedIsComplementOfPlain : Obligations.InvertedIsComplementOfPlain := by
  intro c h heven k s
  have hsemi : Function.Semiconj (fun x : BitVec c.n => ~~~x) (fun x => (stepC (plain c) x).1)
      (fun x => (stepC c x).1) := fun x => (stepC_fst_not_of_even h heven x).symm
  exact (hsemi.iterate_right k s).symm

/-- Settles O33: a state recurs after the multiples of the length of its cycle, the first of which is that length. -/
theorem referenceCycleLengths : Obligations.ReferenceCycleLengths := by
  intro c _ hi ht hn p hmem k hpos hle
  have hcycle : p.1 < 2 ^ 8 ∧ Function.minimalPeriod referenceNext p.1 = p.2 := by
    simp only [List.mem_cons, List.not_mem_nil, or_false] at hmem
    rcases hmem with rfl | rfl | rfl
    · exact ⟨by norm_num, minimalPeriod_referenceNext_zero⟩
    · exact ⟨by norm_num, minimalPeriod_referenceNext_six⟩
    · exact ⟨by norm_num, minimalPeriod_referenceNext_twentySix⟩
  obtain ⟨hlt, hperiod⟩ := hcycle
  rw [stateAfterSteps_eq_self_iff_reference hi ht hn hlt hperiod]
  exact ⟨fun hdvd => hle.antisymm (Nat.le_of_dvd hpos hdvd), fun h => h ▸ dvd_rfl⟩

end

section
/-! The statement about carrying STATE from one instance to another (R176): the response of VALUE as the seed of LOAD. -/

open Sys2Proof Sys2Proof.Machine Sys2Proof.Claims Sys2Proof.MemoryRules Sys2Proof.StateOpsRules

namespace Sys2Proof.CopyRules

/-- A register put on the bus is, as a seed of the same width, the register itself: the bus has room for it, and the
seed keeps all of its bits. -/
theorem seedOperand_zextBus_toNat {c d : Configuration} (h : c.n = d.n) (q : BitVec c.n) :
    (seedOperand d (zextBus q)).toNat = q.toNat := by
  rw [seedOperand, BitVec.toNat_setWidth, zextBus_toNat (n_le_128 c), ← h, Nat.mod_eq_of_lt q.isLt]

end Sys2Proof.CopyRules

open Sys2Proof.CopyRules

/-- Settles O21: VALUE answers with STATE on the bus, and LOAD takes it back as a seed of the same width. -/
theorem loadOfValueCopiesState : Obligations.LoadOfValueCopiesState :=
  fun s t a hn => ⟨respond (zextBus s.q) errOk s, respond 0 errOk { t with q := seedOperand t.cfg (zextBus s.q) },
    exec_value a s, exec_load (zextBus s.q) t, seedOperand_zextBus_toNat hn s.q, rfl⟩

end

section
/-! The statements about reset and hazards (spec/70_reset_and_hazards.md): the reset edge and the one after it (R190,
R195), acceptance (R197), and the wait for a response (R198, R199, R205). -/

open Sys2Proof Sys2Proof.Machine Sys2Proof.Safety Sys2Proof.Claims Sys2Proof.StateRules Sys2Proof.MemoryRules
  Sys2Proof.EncodingRules

namespace Sys2Proof.HazardRules

/-! ## The kinds of edge (R190, R195, R197) -/

/-- An accepting edge is the command on the pins, then the wait of its latency. -/
theorem step_accept_of_exec {s t : State} (ha : s.accepts = true) (he : exec (decode s.word) s = .next t) :
    step s = .next (tick s false (launch (decode s.word) t)) := by
  rw [step_accept ha, he, mapNext]

theorem not_accepts_of_not_ready {s : State} (h : s.cmdReady = false) : s.accepts = false := by
  rw [State.accepts, h, Bool.and_false, Bool.false_and]

theorem not_ready_of_rstSeen {s : State} (h : s.rstSeen = true) : s.cmdReady = false := by
  rw [State.cmdReady, h, Bool.not_true, Bool.and_false]

theorem not_ready_of_busy {s : State} (h : s.busy = true) : s.cmdReady = false := by
  rw [State.cmdReady, h, Bool.not_true, Bool.false_and]

theorem not_busy_of_ready {s : State} (h : s.cmdReady = true) : s.busy = false := by
  rw [State.busy, ((cmdReady_iff s).1 h).1, Option.isSome_none]

/-- The first edge with rst = 0 after a reset is an idle one, whatever is on the command pins (R195). -/
theorem step_afterReset {s : State} (hr : s.rstSeen = true) (hs : s.seq = none) (hp : s.pins.rst = false) :
    step s = .next (tick s false (silent s)) :=
  step_idle hp hs (not_accepts_of_not_ready (not_ready_of_rstSeen hr))

theorem word_present (s : State) (w : CmdWord) : (present s w).word = w := cmdWord_fields w

/-! ## The pins of an edge with cmd_ready = 0 (R197) -/

/-- The state s with the host driving the pins p at the coming edge, and then doing rest. -/
def driving (s : State) (p : Pins) (rest : List HostAction) : State := { s with host := .drive p :: rest }

/-- An edge that begins with cmd_ready = 0 is a reset edge, one of a command in flight, or an idle one. Each uses the
host's action up and reads no more of the pins than rst. -/
theorem step_driving_of_not_ready {s : State} {p p' : Pins} (rest : List HostAction) (hready : s.cmdReady = false)
    (hrst : p.rst = p'.rst) : step (driving s p rest) = step (driving s p' rest) := by
  replace hrst : (driving s p rest).pins.rst = (driving s p' rest).pins.rst := hrst
  have hna (p : Pins) : (driving s p rest).accepts = false := not_accepts_of_not_ready hready
  cases hp : (driving s p rest).pins.rst with
  | true => exact (step_reset hp).trans (step_reset (hrst.symm.trans hp)).symm
  | false =>
    have hp' := hrst.symm.trans hp
    cases hs : s.seq with
    | some f =>
      rcases Nat.lt_or_ge 1 f.left with hl | hl
      · exact (step_wait hp hs hl).trans (step_wait hp' hs hl).symm
      · exact (step_respond hp hs hl).trans (step_respond hp' hs hl).symm
    | none => exact (step_idle hp hs (hna p)).trans (step_idle hp' hs (hna p')).symm

/-! ## The bound of the latencies (R205) -/

theorem le_foldr_max (l : List Nat) (d : Nat) : d ≤ l.foldr max d := by
  induction l with
  | nil => exact le_rfl
  | cons a l ih => exact le_max_of_le_right ih

theorem latency_le_latencyMax (c : Configuration) (op : Opcode) (arg : Bus) : latency c op arg ≤ latencyMax c := by
  rw [latency, latencyMax, ← List.foldr_map (f := Config.LatEntry.extra) (g := max)]
  apply Nat.add_le_add_left
  unfold extraLatency
  split
  case h_1 e he => exact List.le_max_of_le' _ (List.mem_map_of_mem (List.mem_of_find?_eq_some he)) le_rfl
  case h_2 => exact le_foldr_max _ _

/-! ## The cycles up to the response (R198, R199) -/

theorem responseOf_eq_some_iff (s : State) (r : Response) :
    responseOf s = some r ↔ s.rspValid = true ∧ s.rspData = r.data ∧ s.rspErr = r.err := by
  obtain ⟨data, err⟩ := r
  simp [responseOf]

/-- A command in flight shows nothing and keeps the block busy while it has edges to go. -/
theorem runEdges_waiting {j : Nat} {s : State} {f : InFlight} (hf : s.seq = some f) (hv : s.rspValid = false)
    (hh : ResetFree s.host) (hj : j < f.left) :
    ∃ u, runEdges j s = some ([], u) ∧ u.busy = true ∧ u.rspValid = false := by
  induction j generalizing s f with
  | zero => exact ⟨s, rfl, Option.isSome_iff_exists.2 ⟨f, hf⟩, hv⟩
  | succ j ih =>
    obtain ⟨u, hrun, hu⟩ := ih (s := tick s false (silent { s with seq := some { f with left := f.left - 1 } })) rfl
      rfl (resetFree_hostAfter hh) (Nat.lt_sub_of_add_lt hj)
    rw [runEdges_succ (step_wait (pins_rst_of_resetFree hh) hf (by omega)), hrun]
    exact ⟨u, rfl, hu⟩

/-- The edges of an accepted command short of its latency show nothing and leave the block busy. -/
theorem runEdges_before_response {s t : State} (ha : s.accepts = true) (hh : ResetFree s.host)
    (he : exec (decode s.word) s = .next t) {j : Nat} (hj : 1 ≤ j)
    (hlat : j < latency s.cfg (decode s.word).opcode (decode s.word).arg) :
    ∃ u, runEdges j s = some ([], u) ∧ u.busy = true ∧ u.rspValid = false := by
  obtain ⟨j, rfl⟩ := Nat.exists_eq_add_of_le' hj
  have hstep := step_accept_of_exec ha he
  rw [← (exec_frame he).2.1, latency] at hlat
  rcases launch_cases (decode s.word) t with ⟨he0, -⟩ | ⟨e, he1, hl⟩
  · omega
  · rw [hl] at hstep
    obtain ⟨u, hrun, hu⟩ := runEdges_waiting (j := j) (s := tick s false (silent
      { t with seq := some ⟨decode s.word, e + 1, ⟨t.rspData, t.rspErr⟩⟩ })) rfl rfl (resetFree_hostAfter hh)
      (show j < e + 1 by omega)
    rw [runEdges_succ hstep, hrun]
    exact ⟨u, rfl, hu⟩

/-! ## A command sequence from reset (R24, R195) -/

/-- The state right after reset, with the host about to issue these commands. -/
def issuingFromReset (c : Configuration) (is : List Instr) : State :=
  { State.resetOf c with host := is.map issueOf }

/-- The state one edge later, in the first cycle with cmd_ready = 1. -/
def firstReady (c : Configuration) (is : List Instr) : State :=
  tick (issuingFromReset c is) false (silent (issuingFromReset c is))

theorem step_issuingFromReset (c : Configuration) (is : List Instr) :
    step (issuingFromReset c is) = .next (firstReady c is) :=
  step_afterReset rfl rfl (pins_rst_of_resetFree (resetFree_issues is))

/-- The first edge accepts no command, so the host still holds them all. -/
theorem firstReady_host (c : Configuration) (is : List Instr) : (firstReady c is).host = is.map issueOf :=
  hostAfter_issues_held (not_accepts_of_not_ready rfl) rfl

theorem firstReady_cmdReady (c : Configuration) (is : List Instr) : (firstReady c is).cmdReady = true :=
  (cmdReady_iff _).2 ⟨rfl, rfl⟩

/-- The first edge writes neither the configuration nor STATE. -/
theorem firstReady_register (c : Configuration) (is : List Instr) : SameRegister (State.resetOf c) (firstReady c is) :=
  ⟨rfl, rfl⟩

theorem perform_cfg {is : List Instr} {s t : State} {rs : List Response} (h : perform is s = some (rs, t)) :
    t.cfg = s.cfg := by
  induction is generalizing s rs with
  | nil => cases h; rfl
  | cons i is ih =>
    obtain ⟨u, he⟩ := exec_completes i s
    rw [perform_cons he, Option.map_eq_some_iff] at h
    obtain ⟨⟨rs', v⟩, hrest, hv⟩ := h
    obtain rfl : v = t := congrArg Prod.snd hv
    exact (ih hrest).trans (exec_frame he).2.1

end Sys2Proof.HazardRules

open Sys2Proof.HazardRules

/-! ## The statements -/

/-- Settles O49: of the pins that the host drives, an edge that begins with cmd_ready = 0 reads rst alone. -/
theorem notReadyIgnoresCommandPins : Obligations.NotReadyIgnoresCommandPins :=
  fun _ rest _ _ hready hrst => step_driving_of_not_ready rest hready hrst

/-- Settles O50: until the last edge of its latency the command is in flight, and that edge begins its response cycle. -/
theorem responseComesAfterLatency : Obligations.ResponseComesAfterLatency := by
  intro s t ha hh he
  rw [← decode_word_opcode, ← decode_word_arg]
  refine ⟨fun j hj hlat => ?_, ?_⟩
  · obtain ⟨u, hrun, hbusy, hv⟩ := runEdges_before_response ha hh he hj hlat
    exact ⟨u, hrun, hbusy, not_ready_of_busy hbusy, hv⟩
  · obtain ⟨u, hrun, hans⟩ := runEdges_accepted ha hh he
    obtain ⟨hv, hd, herr⟩ := (responseOf_eq_some_iff u _).1 hans.response
    obtain ⟨hc, hq⟩ := hans.register
    exact ⟨u, hrun, not_busy_of_ready hans.ready, hans.ready, hv, hd, herr, hc.symm, hq.symm⟩

/-- Settles O51: the response comes after the command's latency, which is at least 1 and at most LAT_MAX. -/
theorem boundedCompletion : Obligations.BoundedCompletion := by
  intro s ha hh
  obtain ⟨t, he⟩ := exec_completes (decode s.word) s
  obtain ⟨u, hrun, hans⟩ := runEdges_accepted ha hh he
  exact ⟨_, _, u, Nat.le_add_right 1 _, latency_le_latencyMax s.cfg _ _, hrun,
    ((responseOf_eq_some_iff u _).1 hans.response).1⟩

/-- Settles O60: the first edge makes the block ready with the host still holding every word, and from there the run is
that of the command sequence on the STATE of reset. -/
theorem commandSequenceRunsFromReset : Obligations.CommandSequenceRunsFromReset := by
  intro is c hw
  obtain ⟨rs, t', u, hperf', hrun, hlen, huc, huq, -, -⟩ := clockedRunRefinesCommandSequence is (firstReady c is) hw
    (firstReady_cmdReady c is) (firstReady_host c is)
  obtain ⟨t, hperf, htc, htq⟩ := perform_sameRegister (firstReady_register c is) hperf'
  have hfirst := runEdges_succ (step_issuingFromReset c is) 0
  have hc : t.cfg = c := perform_cfg hperf
  exact ⟨rs, t, u, hperf, runEdges_add 1 _ _ _ u [] rs hfirst hrun, hlen, huc.trans (htc.symm.trans hc), hc,
    huq.trans htq.symm⟩

/-- Settles O44: an accepting edge runs the command on the pins; a presented word stands on the pins of a ready block,
and is that of its command. -/
theorem stepRunsDecodedCommand : Obligations.StepRunsDecodedCommand :=
  ⟨fun _ _ => step_accept_of_exec, fun i s hi => ⟨(accepts_iff (present s (encode i))).2 ⟨rfl, rfl, rfl, rfl⟩,
    (congrArg decode (word_present s (encode i))).trans (decode_encode hi)⟩⟩

/-- Settles O45: the reset edge takes every element to its reset value; that of STATE is RESET_SEED in N bits. -/
theorem resetEdge : Obligations.ResetEdge :=
  fun s h => ⟨_, step_reset h, rfl, BitVec.toNat_ofNat s.cfg.resetSeed s.cfg.n, rfl, rfl, rfl, rfl⟩

/-- Settles O47: the block is not ready, so the edge is an idle one, which leaves it ready. -/
theorem firstEdgeAfterResetMakesReady : Obligations.FirstEdgeAfterResetMakesReady := by
  intro s hr hs hp
  have hready := not_ready_of_rstSeen hr
  have hnext : (tick s false (silent s)).cmdReady = true := (cmdReady_iff _).2 ⟨hs, rfl⟩
  exact ⟨hready, not_accepts_of_not_ready hready, tick s false (silent s), step_afterReset hr hs hp, hnext,
    not_busy_of_ready hnext, rfl, rfl, rfl⟩

end

section
/-! The record of error responses (spec/92_eei_decisions.md D31, spec/93_implementation_defined.md X1 to X3): the code
of a response determines the fault recorded for it, and the command determines the code. -/

open Sys2Proof Sys2Proof.Machine Sys2Proof.Safety Sys2Proof.MemoryRules Sys2Proof.EncodingRules Sys2Proof.HazardRules

namespace Sys2Proof.RecordRules

/-! ## The fault of an error code (D31) -/

theorem faultOf_eq_illegalOp_iff : ∀ err : ErrBits, faultOf err = some .illegalOp ↔ err = errIllegalOp := by decide

theorem faultOf_eq_countRange_iff : ∀ err : ErrBits, faultOf err = some .countRange ↔ err = errCountRange := by decide

theorem faultOf_eq_errCodeNeverProduced_iff :
    ∀ err : ErrBits, faultOf err = some .errCodeNeverProduced ↔ err = 0b11#2 := by decide

/-- The fault of state_register alone stands for no error code (R82). -/
theorem faultOf_ne_reservedCtrl : ∀ err : ErrBits, faultOf err ≠ some .reservedCtrl := by decide

/-! ## The record after a command -/

/-- In a response cycle the record is the fault of the response's code. -/
theorem recordedFault_of_response {s : State} (h : s.rspValid = true) : recordedFault s = faultOf s.rspErr := by
  rw [recordedFault, (responseOf_eq_some_iff s ⟨s.rspData, s.rspErr⟩).2 ⟨h, rfl, rfl⟩, Option.bind_some]

/-- A command leaves the fault of the code that applies to it on record. -/
theorem exec_recordedFault (i : Instr) (s : State) :
    ∃ t, exec i s = .next t ∧ recordedFault t = faultOf (errOf i) := by
  obtain ⟨q', data, he, -⟩ := exec_answers i s
  exact ⟨_, he, recordedFault_of_response rfl⟩

end Sys2Proof.RecordRules

open Sys2Proof.RecordRules

/-! ## The statements -/

/-- Settles O43: the record is the fault of the command's code; the two faults of X1 and X2 stand for the codes of a
reserved opcode and of a count above 128, and no command has the code of the third. -/
theorem errorResponsesAreRecorded : Obligations.ErrorResponsesAreRecorded := by
  intro i s
  obtain ⟨t, he, hrec⟩ := exec_recordedFault i s
  refine ⟨t, he, ?_⟩
  rw [hrec]
  exact ⟨(faultOf_eq_illegalOp_iff _).trans (errOf_eq_illegalOp_iff i),
    (faultOf_eq_countRange_iff _).trans (errOf_eq_countRange_iff i),
    fun h => errOf_ne_three i ((faultOf_eq_errCodeNeverProduced_iff _).1 h), faultOf_ne_reservedCtrl _⟩

end
